-- ==== Sys2Proof/Word.lean ====
section
/-! DEFINITION. The word types of the CHIP-8 core (spec/00_scope.md rule R4: XLEN = 8, ALEN = 12, ILEN = 16,
SPLEN = 4; NREG = 16 and NKEYS = 16 give the 4-bit register and key indices; DISP_ROWS = 32, DISP_COLS = 64). Every one of these is a value the spec adds,
shifts, slices or masks as bits (00_scope.md section 5.1), so each is a bit vector and its wrap is the bit vector's. -/

namespace Sys2Proof

/-- An 8-bit value: a general register, DT, ST, a byte of Memory (R10, R19, R20, R31). -/
abbrev Byte := BitVec 8

/-- A 16-bit instruction word (R60). -/
abbrev Word := BitVec 16

/-- A 12-bit address: PC, I, a call-stack entry, what the memory interface carries (R14, R17, R21, R31). -/
abbrev Addr := BitVec 12

/-- A 4-bit register index, the fields `x` and `y` (R61). -/
abbrev RegIdx := BitVec 4

/-- The stack pointer: 4 bits, so its arithmetic is modulo 16 (R18). -/
abbrev StackPtr := BitVec 4

/-- A 4-bit key index (R34, R140). -/
abbrev KeyIdx := BitVec 4

/-- One row of Display: 64 one-bit cells, bit `c` the cell of column `c` (R32). -/
abbrev DisplayRow := BitVec 64

/-- The 2048 one-bit cells of Display, row-major: 32 rows of 64 cells (R32). Cells are kept as bits because the spec XORs them;
equal displays are equal data (log entry 12). -/
abbrev Display := Vector DisplayRow 32

/-- The 16 key levels of Keypad; entry `k` is true when key `k` is pressed (R34). -/
abbrev Keypad := Vector Bool 16

end Sys2Proof
end

