-- ==== Sys2Proof/Syntax.lean ====
section
/-! DEFINITION. The instructions: one constructor per row of spec/opcode_table.json (30_encoding.md rules R62, R66), in the
table's order. Fields are the nibbles of R61 at their own widths; immediates are taken as they stand (R63). -/

namespace Sys2Proof

/-- The 34 instructions of the opcode map and the catch-all decoder outcome (R62, R66). -/
inductive Instr
  /-- `00E0` CLS (R130). -/
  | cls
  /-- `00EE` RET (R90). -/
  | ret
  /-- `1nnn` JP nnn (R91). -/
  | jp (nnn : Addr)
  /-- `2nnn` CALL nnn (R92). -/
  | call (nnn : Addr)
  /-- `3xnn` SE Vx, nn (R93). -/
  | seImm (x : RegIdx) (nn : Byte)
  /-- `4xnn` SNE Vx, nn (R94). -/
  | sneImm (x : RegIdx) (nn : Byte)
  /-- `5xy0` SE Vx, Vy (R95). -/
  | seReg (x y : RegIdx)
  /-- `6xnn` LD Vx, nn (R100). -/
  | ldImm (x : RegIdx) (nn : Byte)
  /-- `7xnn` ADD Vx, nn (R101). -/
  | addImm (x : RegIdx) (nn : Byte)
  /-- `8xy0` LD Vx, Vy (R102). -/
  | ldReg (x y : RegIdx)
  /-- `8xy1` OR Vx, Vy (R103). -/
  | orReg (x y : RegIdx)
  /-- `8xy2` AND Vx, Vy (R104). -/
  | andReg (x y : RegIdx)
  /-- `8xy3` XOR Vx, Vy (R105). -/
  | xorReg (x y : RegIdx)
  /-- `8xy4` ADD Vx, Vy (R106). -/
  | addReg (x y : RegIdx)
  /-- `8xy5` SUB Vx, Vy (R107). -/
  | subReg (x y : RegIdx)
  /-- `8xy6` SHR Vx, Vy (R108). -/
  | shrReg (x y : RegIdx)
  /-- `8xy7` SUBN Vx, Vy (R109). -/
  | subnReg (x y : RegIdx)
  /-- `8xyE` SHL Vx, Vy (R110); `y` is encoded and not used (R68). -/
  | shlReg (x y : RegIdx)
  /-- `9xy0` SNE Vx, Vy (R96). -/
  | sneReg (x y : RegIdx)
  /-- `Annn` LD I, nnn (R120). -/
  | ldI (nnn : Addr)
  /-- `Bnnn` JP V0, nnn (R97). -/
  | jpV0 (nnn : Addr)
  /-- `Cxnn` RND Vx, nn (R111). -/
  | rnd (x : RegIdx) (nn : Byte)
  /-- `Dxyn` DRW Vx, Vy, n (R131). -/
  | drw (x y : RegIdx) (n : BitVec 4)
  /-- `Ex9E` SKP Vx (R140). -/
  | skp (x : RegIdx)
  /-- `ExA1` SKNP Vx (R141). -/
  | sknp (x : RegIdx)
  /-- `Fx07` LD Vx, DT (R143). -/
  | ldVxDt (x : RegIdx)
  /-- `Fx0A` LD Vx, K (R142). -/
  | ldVxK (x : RegIdx)
  /-- `Fx15` LD DT, Vx (R144). -/
  | ldDtVx (x : RegIdx)
  /-- `Fx18` LD ST, Vx (R145). -/
  | ldStVx (x : RegIdx)
  /-- `Fx1E` ADD I, Vx (R121). -/
  | addI (x : RegIdx)
  /-- `Fx29` LD F, Vx (R122). -/
  | ldF (x : RegIdx)
  /-- `Fx33` LD B, Vx (R123). -/
  | ldB (x : RegIdx)
  /-- `Fx55` LD [I], Vx (R124). -/
  | storeRegs (x : RegIdx)
  /-- `Fx65` LD Vx, [I] (R125). -/
  | loadRegs (x : RegIdx)
  /-- Row 35, anything else: UNRECOGNIZED, carrying the word fetched (R70, R150). -/
  | unrecognized (w : Word)
  deriving DecidableEq, Repr

end Sys2Proof
end

