-- ==== Sys2Proof/WellFormed.lean ====
section
/-! DEFINITION. Well-formed instructions. The field types carry every bound of 30_encoding.md (R61, R63: all 16 register indices
and every immediate are legal), so the one check is that an `unrecognized` term carries a word that is unrecognized (R70). -/

namespace Sys2Proof

/-- The unrecognized words, family by family as the table of R70 lists them. -/
def unrecognizedWord (w : Word) : Bool :=
  let family := w.extractLsb' 12 4
  let n := w.extractLsb' 0 4
  let nn := w.extractLsb' 0 8
  (family == 0x0#4 && w != 0x00E0#16 && w != 0x00EE#16)
    || (family == 0x5#4 && n != 0x0#4)
    || (family == 0x8#4 && (n == 0x8#4 || n == 0x9#4 || n == 0xA#4 || n == 0xB#4 || n == 0xC#4 || n == 0xD#4 || n == 0xF#4))
    || (family == 0x9#4 && n != 0x0#4)
    || (family == 0xE#4 && nn != 0x9E#8 && nn != 0xA1#8)
    || (family == 0xF#4 && nn != 0x07#8 && nn != 0x0A#8 && nn != 0x15#8 && nn != 0x18#8 && nn != 0x1E#8
        && nn != 0x29#8 && nn != 0x33#8 && nn != 0x55#8 && nn != 0x65#8)

/-- Whether an instruction is one the decoder can give. -/
def Instr.wellFormed (i : Instr) : Bool :=
  match i with
  | .unrecognized w => unrecognizedWord w
  | .cls | .ret | .jp _ | .call _ | .seImm _ _ | .sneImm _ _ | .seReg _ _ | .ldImm _ _ | .addImm _ _ | .ldReg _ _
  | .orReg _ _ | .andReg _ _ | .xorReg _ _ | .addReg _ _ | .subReg _ _ | .shrReg _ _ | .subnReg _ _ | .shlReg _ _
  | .sneReg _ _ | .ldI _ | .jpV0 _ | .rnd _ _ | .drw _ _ _ | .skp _ | .sknp _ | .ldVxDt _ | .ldVxK _ | .ldDtVx _
  | .ldStVx _ | .addI _ | .ldF _ | .ldB _ | .storeRegs _ | .loadRegs _ => true

end Sys2Proof
end

