-- ==== Sys2Proof/Decode.lean ====
section
/-! DEFINITION. The decoder, total on every word and rejecting by name a byte sequence too short for a word; after it the
encoder and the opcode map of 30_encoding.md (R60 to R73). -/

namespace Sys2Proof

/-! ## The fields of a word (R61) -/

/-- `op = w[15:12]`. -/
def fieldOp (w : Word) : BitVec 4 := w.extractLsb' 12 4
/-- `x = w[11:8]`. -/
def fieldX (w : Word) : RegIdx := w.extractLsb' 8 4
/-- `y = w[7:4]`. -/
def fieldY (w : Word) : RegIdx := w.extractLsb' 4 4
/-- `n = w[3:0]`. -/
def fieldN (w : Word) : BitVec 4 := w.extractLsb' 0 4
/-- `nn = w[7:0]`. -/
def fieldNn (w : Word) : Byte := w.extractLsb' 0 8
/-- `nnn = w[11:0]`. -/
def fieldNnn (w : Word) : Addr := w.extractLsb' 0 12

/-! ## The decoder (R64) -/

/-- Family 0: the whole word is compared (R64). -/
def decodeFamily0 (w : Word) : Instr :=
  if w = 0x00E0#16 then .cls
  else if w = 0x00EE#16 then .ret
  else .unrecognized w

/-- Family 5: the fourth nibble must be 0 (R64). -/
def decodeFamily5 (w : Word) : Instr :=
  if fieldN w = 0x0#4 then .seReg (fieldX w) (fieldY w) else .unrecognized w

/-- Family 8: the fourth nibble selects the operation (R64, R67; PRESUMED by the spec, unsafe: log entry 15). -/
def decodeFamily8 (w : Word) : Instr :=
  let x := fieldX w
  let y := fieldY w
  let n := fieldN w
  if n = 0x0#4 then .ldReg x y
  else if n = 0x1#4 then .orReg x y
  else if n = 0x2#4 then .andReg x y
  else if n = 0x3#4 then .xorReg x y
  else if n = 0x4#4 then .addReg x y
  else if n = 0x5#4 then .subReg x y
  else if n = 0x6#4 then .shrReg x y
  else if n = 0x7#4 then .subnReg x y
  else if n = 0xE#4 then .shlReg x y
  else .unrecognized w

/-- Family 9: the fourth nibble must be 0 (R64). -/
def decodeFamily9 (w : Word) : Instr :=
  if fieldN w = 0x0#4 then .sneReg (fieldX w) (fieldY w) else .unrecognized w

/-- Family E: the low byte is the sub-opcode (R64). -/
def decodeFamilyE (w : Word) : Instr :=
  if fieldNn w = 0x9E#8 then .skp (fieldX w)
  else if fieldNn w = 0xA1#8 then .sknp (fieldX w)
  else .unrecognized w

/-- Family F: the low byte is the sub-opcode (R64). -/
def decodeFamilyF (w : Word) : Instr :=
  let x := fieldX w
  let nn := fieldNn w
  if nn = 0x07#8 then .ldVxDt x
  else if nn = 0x0A#8 then .ldVxK x
  else if nn = 0x15#8 then .ldDtVx x
  else if nn = 0x18#8 then .ldStVx x
  else if nn = 0x1E#8 then .addI x
  else if nn = 0x29#8 then .ldF x
  else if nn = 0x33#8 then .ldB x
  else if nn = 0x55#8 then .storeRegs x
  else if nn = 0x65#8 then .loadRegs x
  else .unrecognized w

/-- The decoder: a pure function of the word (R64, R82). -/
def decodeWord (w : Word) : Instr :=
  let op := fieldOp w
  if op = 0x0#4 then decodeFamily0 w
  else if op = 0x1#4 then .jp (fieldNnn w)
  else if op = 0x2#4 then .call (fieldNnn w)
  else if op = 0x3#4 then .seImm (fieldX w) (fieldNn w)
  else if op = 0x4#4 then .sneImm (fieldX w) (fieldNn w)
  else if op = 0x5#4 then decodeFamily5 w
  else if op = 0x6#4 then .ldImm (fieldX w) (fieldNn w)
  else if op = 0x7#4 then .addImm (fieldX w) (fieldNn w)
  else if op = 0x8#4 then decodeFamily8 w
  else if op = 0x9#4 then decodeFamily9 w
  else if op = 0xA#4 then .ldI (fieldNnn w)
  else if op = 0xB#4 then .jpV0 (fieldNnn w)
  else if op = 0xC#4 then .rnd (fieldX w) (fieldNn w)
  else if op = 0xD#4 then .drw (fieldX w) (fieldY w) (fieldN w)
  else if op = 0xE#4 then decodeFamilyE w
  else decodeFamilyF w

/-! ## Bytes (R42, R60) -/

/-- Why a byte sequence is not an instruction. -/
inductive DecodeError
  /-- Fewer than the two bytes of a word. Raised by `decodeBytes` alone: a fetch always has two bytes (R44, R45). -/
  | truncated
  deriving DecidableEq, Repr

/-- A word from its two bytes, the byte at the lower address in the high half (R42). -/
def wordOfBytes (high low : Byte) : Word := high ++ low

/-- The byte of a word that stands at the lower address, `w[15:8]` (R42). -/
def highByte (w : Word) : Byte := w.extractLsb' 8 8

/-- The byte of a word that stands at the higher address, `w[7:0]` (R42). -/
def lowByte (w : Word) : Byte := w.extractLsb' 0 8

/-- One instruction from the front of a byte sequence, with the bytes after it. -/
def decodeBytes (bs : List Byte) : Except DecodeError (Instr × List Byte) :=
  match bs with
  | high :: low :: rest => .ok (decodeWord (wordOfBytes high low), rest)
  | [_] => .error .truncated
  | [] => .error .truncated

/-! ## The encoder (R61, R62, R66) -/

/-- Format A: a family nibble and an address. -/
def formatA (op : BitVec 4) (nnn : Addr) : Word := op ++ nnn
/-- Format XI: a family nibble, a register and a byte. -/
def formatXI (op : BitVec 4) (x : RegIdx) (nn : Byte) : Word := op ++ x ++ nn
/-- Formats XY and XYN: a family nibble, two registers and a fourth nibble. -/
def formatXY (op : BitVec 4) (x y : RegIdx) (n : BitVec 4) : Word := op ++ x ++ y ++ n
/-- Format X: a family nibble, a register and a sub-opcode byte. -/
def formatX (op : BitVec 4) (x : RegIdx) (sub : Byte) : Word := op ++ x ++ sub

/-- The word of an instruction. -/
def encode (i : Instr) : Word :=
  match i with
  | .cls => 0x00E0#16
  | .ret => 0x00EE#16
  | .jp nnn => formatA 0x1#4 nnn
  | .call nnn => formatA 0x2#4 nnn
  | .seImm x nn => formatXI 0x3#4 x nn
  | .sneImm x nn => formatXI 0x4#4 x nn
  | .seReg x y => formatXY 0x5#4 x y 0x0#4
  | .ldImm x nn => formatXI 0x6#4 x nn
  | .addImm x nn => formatXI 0x7#4 x nn
  | .ldReg x y => formatXY 0x8#4 x y 0x0#4
  | .orReg x y => formatXY 0x8#4 x y 0x1#4
  | .andReg x y => formatXY 0x8#4 x y 0x2#4
  | .xorReg x y => formatXY 0x8#4 x y 0x3#4
  | .addReg x y => formatXY 0x8#4 x y 0x4#4
  | .subReg x y => formatXY 0x8#4 x y 0x5#4
  | .shrReg x y => formatXY 0x8#4 x y 0x6#4
  | .subnReg x y => formatXY 0x8#4 x y 0x7#4
  | .shlReg x y => formatXY 0x8#4 x y 0xE#4
  | .sneReg x y => formatXY 0x9#4 x y 0x0#4
  | .ldI nnn => formatA 0xA#4 nnn
  | .jpV0 nnn => formatA 0xB#4 nnn
  | .rnd x nn => formatXI 0xC#4 x nn
  | .drw x y n => formatXY 0xD#4 x y n
  | .skp x => formatX 0xE#4 x 0x9E#8
  | .sknp x => formatX 0xE#4 x 0xA1#8
  | .ldVxDt x => formatX 0xF#4 x 0x07#8
  | .ldVxK x => formatX 0xF#4 x 0x0A#8
  | .ldDtVx x => formatX 0xF#4 x 0x15#8
  | .ldStVx x => formatX 0xF#4 x 0x18#8
  | .addI x => formatX 0xF#4 x 0x1E#8
  | .ldF x => formatX 0xF#4 x 0x29#8
  | .ldB x => formatX 0xF#4 x 0x33#8
  | .storeRegs x => formatX 0xF#4 x 0x55#8
  | .loadRegs x => formatX 0xF#4 x 0x65#8
  | .unrecognized w => w

/-- The bytes of an instruction as they stand in Memory, high byte first (R42, R60). -/
def encodeBytes (i : Instr) : List Byte := [highByte (encode i), lowByte (encode i)]

/-- The one-operand assembler form `SHR Vx`: `8xy6` with `y = x` (R73). -/
def asmShr (x : RegIdx) : Instr := .shrReg x x

/-- The one-operand assembler form `SHL Vx`: `8xyE` with `y = x` (R73). -/
def asmShl (x : RegIdx) : Instr := .shlReg x x

/-! ## The opcode map (R66) -/

/-- One row of the opcode map: the spec's pattern string, its mask and its match. -/
structure OpcodeRow where
  /-- The pattern as the spec writes it. -/
  pattern : String
  /-- The bits the pattern fixes. -/
  mask : Word
  /-- Their values. -/
  value : Word
  deriving DecidableEq, Repr

/-- The 34 rows of the opcode map, in the order of R66. -/
def opcodeRows : List OpcodeRow :=
  [⟨"00E0", 0xFFFF#16, 0x00E0#16⟩, ⟨"00EE", 0xFFFF#16, 0x00EE#16⟩, ⟨"1nnn", 0xF000#16, 0x1000#16⟩,
   ⟨"2nnn", 0xF000#16, 0x2000#16⟩, ⟨"3xnn", 0xF000#16, 0x3000#16⟩, ⟨"4xnn", 0xF000#16, 0x4000#16⟩,
   ⟨"5xy0", 0xF00F#16, 0x5000#16⟩, ⟨"6xnn", 0xF000#16, 0x6000#16⟩, ⟨"7xnn", 0xF000#16, 0x7000#16⟩]
  ++ [⟨"8xy0", 0xF00F#16, 0x8000#16⟩, ⟨"8xy1", 0xF00F#16, 0x8001#16⟩, ⟨"8xy2", 0xF00F#16, 0x8002#16⟩,
   ⟨"8xy3", 0xF00F#16, 0x8003#16⟩, ⟨"8xy4", 0xF00F#16, 0x8004#16⟩, ⟨"8xy5", 0xF00F#16, 0x8005#16⟩,
   ⟨"8xy6", 0xF00F#16, 0x8006#16⟩, ⟨"8xy7", 0xF00F#16, 0x8007#16⟩, ⟨"8xyE", 0xF00F#16, 0x800E#16⟩,
   ⟨"9xy0", 0xF00F#16, 0x9000#16⟩]
  ++ [⟨"Annn", 0xF000#16, 0xA000#16⟩, ⟨"Bnnn", 0xF000#16, 0xB000#16⟩, ⟨"Cxnn", 0xF000#16, 0xC000#16⟩,
   ⟨"Dxyn", 0xF000#16, 0xD000#16⟩, ⟨"Ex9E", 0xF0FF#16, 0xE09E#16⟩, ⟨"ExA1", 0xF0FF#16, 0xE0A1#16⟩]
  ++ [⟨"Fx07", 0xF0FF#16, 0xF007#16⟩, ⟨"Fx0A", 0xF0FF#16, 0xF00A#16⟩, ⟨"Fx15", 0xF0FF#16, 0xF015#16⟩,
   ⟨"Fx18", 0xF0FF#16, 0xF018#16⟩, ⟨"Fx1E", 0xF0FF#16, 0xF01E#16⟩, ⟨"Fx29", 0xF0FF#16, 0xF029#16⟩,
   ⟨"Fx33", 0xF0FF#16, 0xF033#16⟩, ⟨"Fx55", 0xF0FF#16, 0xF055#16⟩, ⟨"Fx65", 0xF0FF#16, 0xF065#16⟩]

/-- A word selects a row when `(w AND mask) = match` (R66). -/
def OpcodeRow.selects (r : OpcodeRow) (w : Word) : Bool := w &&& r.mask == r.value

/-- The number of an instruction's row in the table of R66; row 35 is the catch-all. -/
def Instr.rowNumber (i : Instr) : Nat :=
  match i with
  | .cls => 1
  | .ret => 2
  | .jp _ => 3
  | .call _ => 4
  | .seImm _ _ => 5
  | .sneImm _ _ => 6
  | .seReg _ _ => 7
  | .ldImm _ _ => 8
  | .addImm _ _ => 9
  | .ldReg _ _ => 10
  | .orReg _ _ => 11
  | .andReg _ _ => 12
  | .xorReg _ _ => 13
  | .addReg _ _ => 14
  | .subReg _ _ => 15
  | .shrReg _ _ => 16
  | .subnReg _ _ => 17
  | .shlReg _ _ => 18
  | .sneReg _ _ => 19
  | .ldI _ => 20
  | .jpV0 _ => 21
  | .rnd _ _ => 22
  | .drw _ _ _ => 23
  | .skp _ => 24
  | .sknp _ => 25
  | .ldVxDt _ => 26
  | .ldVxK _ => 27
  | .ldDtVx _ => 28
  | .ldStVx _ => 29
  | .addI _ => 30
  | .ldF _ => 31
  | .ldB _ => 32
  | .storeRegs _ => 33
  | .loadRegs _ => 34
  | .unrecognized _ => 35

/-! ## The host's reading of a table word -/

/-- The instruction the decoder reads from a table word: the word laid out in its two bytes, high byte first (R42), every bit at or
above `nbits` zero. -/
def decodeTableWord (nbits w : Nat) : Option Instr :=
  let word : Word := BitVec.ofNat 16 (w % 2 ^ nbits)
  match decodeBytes [highByte word, lowByte word] with
  | .ok (i, _) => some i
  | .error _ => none

end Sys2Proof
end

