-- ==== Sys2Proof/Config.lean ====
section
/-! DEFINITION. What is fixed for the machine: the implementation parameters of spec/00_scope.md rule R4 under their names,
the values of the open parameter SHR_FLAG_SRC of R5, and the free values (RND, KEYS of R5), which have no body. The widths XLEN, ALEN, ILEN
and SPLEN are the widths of the types in Sys2Proof/Word.lean. -/

namespace Sys2Proof.Config

/-- `NREG`: general registers V0 to VF (R4). -/
abbrev nreg : Nat := 16

/-- `FLAG_REG`: VF, the register that doubles as the flag register (R4, R12). -/
abbrev flagReg : RegIdx := 0xF#4

/-- `MEM_BYTES`: the bytes of Memory, addresses 0x000 to 0xFFF (R4). -/
abbrev memBytes : Nat := 0x1000

/-- `STACK_DEPTH`: entries of the call stack (R4). -/
abbrev stackDepth : Nat := 16

/-- `IPT`: instruction steps executed per tick (R4, R85). -/
abbrev ipt : Nat := 11

/-- `RESET_PC`: PC after reset, and the program's load address (R4, R25, R176). -/
abbrev resetPc : Addr := 0x200#12

/-- `DISP_COLS`: display columns (R4). -/
abbrev dispCols : Nat := 64

/-- `DISP_ROWS`: display rows (R4). -/
abbrev dispRows : Nat := 32

/-- `DISP_CELLS`: display cells (R4). -/
abbrev dispCells : Nat := 2048

/-- `NKEYS`: keys of the keypad (R4). -/
abbrev nkeys : Nat := 16

/-- `FONT_BASE`: the address of the glyph of digit 0 (R4). -/
abbrev fontBase : Nat := 0x000

/-- `GLYPH_BYTES`: bytes per font glyph (R4). -/
abbrev glyphBytes : Nat := 5

/-- `SPRITE_COLS`: columns of a sprite row (R4). -/
abbrev spriteCols : Nat := 8

/-- The most bytes a program may have, 0xE00 = 3584 (R176). -/
abbrev maxProgram : Nat := 0xE00

/-- `SHR_FLAG_SRC`: the two readings of `8xy6`'s flag (R5, R108; spec/90_conflicts.md C2). -/
inductive ShrFlagSrc
  /-- VF receives bit 0 of the old `V[x]`: the literal text of the source. -/
  | vx
  /-- VF receives bit 0 of the old `V[y]`: the alternative reading. -/
  | vy
  deriving DecidableEq, Repr

/-- The default of `SHR_FLAG_SRC`, the reading spec/90_conflicts.md C2 chose (R5, R108, D7). The parameter itself is open and stands
in State; this is the value `State.reset` gives it. DESIGN CHOICE of the spec, unsafe: log entry 6. -/
abbrev shrFlagSrcDefault : ShrFlagSrc := .vx

/-- FREE VALUE (`RND`, R35, D11): the byte the random source delivers at draw number `n` of the machine's life, when State lists
no delivered byte. No body: nothing can be proved of it. Log entry 1. -/
opaque freeByte : Nat → Byte

/-- FREE VALUE (`KEYS`, R34, R5): the 16 key levels the host writes after tick number `n`, when State lists no host frame.
No body: nothing can be proved of it. Log entry 2. -/
opaque freeKeys : Nat → Keypad

end Sys2Proof.Config
end

