-- ==== Sys2Proof/Machine/State.lean ====
section
/-! DEFINITION. The state: every piece the spec gives the core (10_state.md R10 to R25), the collaborators it reaches through its
seven interfaces (R30 to R36), and the model's own bookkeeping: the counters of the free values, and whether the first tick has begun.
Plain data throughout. -/

namespace Sys2Proof.Machine

/-- Memory (R31): the listed (address, byte) pairs, addresses strictly rising below 0x1000 and no byte equal to what an
unlisted address reads as. `Memory.read`, `Memory.write` and `Memory.wf` are in Sys2Proof/Machine/Ops.lean. -/
abbrev Memory := List Host.Cell

/-- The whole machine between two steps. -/
structure State where
  /-- `V[0]` to `V[15]`; VF is `V[15]` (R10, R12). -/
  v : Vector Byte 16
  /-- The index register I (R17). -/
  i : Addr
  /-- The program counter (R14). -/
  pc : Addr
  /-- The stack pointer (R18). -/
  sp : StackPtr
  /-- The call stack of 16 return addresses (R21). -/
  stack : Vector Addr 16
  /-- The delay timer (R19). -/
  dt : Byte
  /-- The sound timer (R20). -/
  st : Byte
  /-- The instruction steps already executed in the current tick; 0 between ticks, at most 10 between two steps (R23, D14;
  DESIGN CHOICE, safe: log entry 14). -/
  slot : Nat
  /-- Memory (R31, interface 1 of R30). -/
  mem : Memory
  /-- Display (R32, interface 2). -/
  display : Display
  /-- Keypad: the 16 key levels as the host last wrote them (R34, interface 3). -/
  keys : Keypad
  /-- `RND`: bytes the random source is known to deliver next, the first drawn first (R35, interface 4; DESIGN CHOICE,
  safe: log entry 1). -/
  rnd : List Byte
  /-- MODEL'S OWN: the random bytes drawn so far; it makes each draw beyond `rnd` a fresh free value (log entry 1). -/
  draws : Nat
  /-- `KEYS`: key levels the host is known to write at its next frames, the first for the next frame (R34; DESIGN CHOICE, safe: log
  entry 2). -/
  keyFrames : List Keypad
  /-- MODEL'S OWN: the host frames so far; it makes each frame beyond `keyFrames` a fresh free value (log entry 2). -/
  frames : Nat
  /-- The tick request input: whether the host requests a tick when the core is idle (R85, interface 5; DESIGN CHOICE, unsafe:
  log entry 3). -/
  tickRequest : Bool
  /-- The reset input: whether reset is asserted (R170, R172, interface 6; DESIGN CHOICE, unsafe: log entry 4). -/
  resetRequest : Bool
  /-- The unrecognized-opcode reports emitted so far, oldest first (R150, R151, interface 7; DESIGN CHOICE, safe: log
  entry 13). -/
  reports : List Word
  /-- `SHR_FLAG_SRC`: the open parameter of the build that says which register supplies `8xy6`'s flag (R5, D7). No step writes it; a claim
  over every state is a claim over both values (log entry 6). -/
  shrFlagSrc : Config.ShrFlagSrc
  /-- MODEL'S OWN: whether the first tick has begun, which ends the host's time to load Memory (R36, R175). Every instruction step sets it and
  nothing clears it, reset included (DESIGN CHOICE, unsafe: log entry 17). -/
  started : Bool
  deriving DecidableEq, Repr

/-- Faults. There is none: "No instruction raises a fatal error" (R84, R152). -/
inductive Fault
  deriving DecidableEq

/-- Refusals. -/
inductive Refusal
  /-- Raised by `exec`'s arm of an instruction that has no meaning yet; no arm raises it now. Safe. -/
  | notModelled (mnemonic : String)
  deriving DecidableEq, Repr

/-- The machine right after reset (R25, R170) and before its first tick (R173). The core's registers are at the values of R25,
of which the source gives only PC (DESIGN CHOICE of the spec, D10, unsafe: log entry 10).
Memory lists nothing, every display cell is off and no key is pressed: MEM_INIT, DISP_INIT and KEYS are open (R5), so these three
are named by log entries 7, 8 and 9 (DESIGN CHOICE, unsafe). No random byte and no host frame is listed, so both are free; the host requests ticks and reset is
released (log entries 3, 4).
SHR_FLAG_SRC is at its default (log entry 6), and no tick has begun (log entry 17). -/
def State.reset : State where
  v := Vector.replicate 16 0x00#8
  i := 0x000#12
  pc := Config.resetPc
  sp := 0x0#4
  stack := Vector.replicate 16 0x000#12
  dt := 0x00#8
  st := 0x00#8
  slot := 0
  mem := []
  display := Vector.replicate 32 0#64
  keys := Vector.replicate 16 false
  rnd := []
  draws := 0
  keyFrames := []
  frames := 0
  tickRequest := true
  resetRequest := false
  reports := []
  shrFlagSrc := Config.shrFlagSrcDefault
  started := false

end Sys2Proof.Machine
end

