-- ==== Sys2Proof/Machine/Ops.lean ====
section
/-! DEFINITION. The named operations over the state: Memory, the register file, PC, the call stack, the timers, Display, the random
source, the report, the fetch, the end of a slot, and reset. Every read and write of state goes through one of them.
There is no exception to take and no return from one: the core has no trap mechanism (R152, R154); the one exceptional condition
is the report of R150, `State.report`. -/

namespace Sys2Proof.Machine

/-! ## Memory (R31, R40, R45) -/

/-- What an address with no entry reads as. DESIGN CHOICE, unsafe: MEM_INIT is open (R47, D15), log entry 7. -/
def Memory.unlisted : Byte := 0x00#8

/-- The byte at an address. -/
def Memory.read : Memory → Nat → Byte
  | [], _ => Memory.unlisted
  | (k, b) :: m, a => if k = a then b else Memory.read m a

/-- The entries of every other address. -/
def Memory.erase : Memory → Nat → Memory
  | [], _ => []
  | (k, b) :: m, a => if k = a then Memory.erase m a else (k, b) :: Memory.erase m a

/-- An entry put before the first one of a higher address. -/
def Memory.insert : Memory → Nat → Byte → Memory
  | [], a, b => [(a, b)]
  | (k, c) :: m, a, b => if k < a then (k, c) :: Memory.insert m a b else (a, b) :: (k, c) :: m

/-- The byte at one address replaced. -/
def Memory.write (m : Memory) (a : Nat) (b : Byte) : Memory :=
  if b = Memory.unlisted then Memory.erase m a else Memory.insert (Memory.erase m a) a b

/-- The canonical form from a lowest address upward. -/
def Memory.wfFrom : Nat → Memory → Bool
  | _, [] => true
  | low, (k, b) :: m => decide (low ≤ k) && decide (k < Config.memBytes) && (b != Memory.unlisted) && Memory.wfFrom (k + 1) m

/-- The canonical form: addresses strictly rising and inside Memory, no entry equal to what an unlisted address reads as. -/
def Memory.wf (m : Memory) : Bool := Memory.wfFrom 0 m

/-- `MemRead(a, 1)`; a 12-bit address is already reduced modulo 0x1000 (R40, R45; DESIGN CHOICE of the spec, D2, unsafe: log
entry 11). -/
def State.readByte (s : State) (a : Addr) : Byte := s.mem.read a.toNat

/-- `MemWrite(a, 1, b)` (R40). -/
def State.writeByte (s : State) (a : Addr) (b : Byte) : State := { s with mem := s.mem.write a.toNat b }

/-! ## Registers (R10 to R20) -/

/-- `V[r]`. -/
def State.getV (s : State) (r : RegIdx) : Byte := s.v[r.toNat]'(r.isLt)

/-- `V[r] <- b`. -/
def State.setV (s : State) (r : RegIdx) (b : Byte) : State := { s with v := s.v.set r.toNat b (r.isLt) }

/-- `I <- a`. -/
def State.setI (s : State) (a : Addr) : State := { s with i := a }

/-- `PC <- a`. -/
def State.setPc (s : State) (a : Addr) : State := { s with pc := a }

/-- `DT <- b`. -/
def State.setDt (s : State) (b : Byte) : State := { s with dt := b }

/-- `ST <- b`. -/
def State.setSt (s : State) (b : Byte) : State := { s with st := b }

/-- The result to `V[x]`, then the flag to VF as the value 0x00 or 0x01 (R12, R13, R113; DESIGN CHOICE of the spec, D5, unsafe:
log entry 5). -/
def State.setResultAndFlag (s : State) (x : RegIdx) (result : Byte) (flag : Bool) : State :=
  (s.setV x result).setV Config.flagReg (if flag then 0x01#8 else 0x00#8)

/-! ## Program counter (R14, R15) -/

/-- Fetch's `PC <- PC + 2`, modulo 0x1000 (R81; DESIGN CHOICE of the spec, D3, unsafe: log entry 11). -/
def State.advancePc (s : State) : State := s.setPc (s.pc + 0x002#12)

/-- A conditional skip of one whole instruction, modulo 0x1000 (R93 to R96, R140, R141). -/
def State.skipIf (s : State) (c : Bool) : State := if c then s.setPc (s.pc + 0x002#12) else s

/-- `Fx0A`'s `PC <- PC - 2`, modulo 0x1000 (R142). -/
def State.retreatPc (s : State) : State := s.setPc (s.pc - 0x002#12)

/-! ## The call stack (R18, R21, R22) -/

/-- `stack[SP] <- PC; SP <- (SP + 1) mod 16` (R92). -/
def State.pushPc (s : State) : State :=
  { s with stack := s.stack.set s.sp.toNat s.pc (s.sp.isLt), sp := s.sp + 0x1#4 }

/-- `SP <- (SP - 1) mod 16; PC <- stack[SP]` (R90; DESIGN CHOICE of the spec, D4, unsafe: log entry 11). -/
def State.popPc (s : State) : State :=
  { s with sp := s.sp - 0x1#4, pc := s.stack[(s.sp - 0x1#4).toNat]'((s.sp - 0x1#4).isLt) }

/-! ## Display (R32) -/

/-- `Pixel(k)`: whether cell `k` is on; the cell of row `r` and column `c` has index `r * 64 + c`. -/
def pixel (d : Display) (k : Nat) : Bool := (d[k / Config.dispCols]?.getD 0#64).getLsbD (k % Config.dispCols)

/-- One cell of a row written. -/
def setCell (row : DisplayRow) (col : Nat) (b : Bool) : DisplayRow :=
  (row &&& ~~~(BitVec.twoPow 64 col)) ||| (if b then BitVec.twoPow 64 col else 0#64)

/-- `Pixel(k) <- b`. -/
def setPixel (d : Display) (k : Nat) (b : Bool) : Display :=
  d.setIfInBounds (k / Config.dispCols) (setCell (d[k / Config.dispCols]?.getD 0#64) (k % Config.dispCols) b)

/-- `DisplayClear()`: the display with all 2048 cells off. -/
def clearedDisplay : Display := Vector.replicate 32 0#64

/-- Display replaced by another. -/
def State.setDisplay (s : State) (d : Display) : State := { s with display := d }

/-! ## The random source (R35) -/

/-- `RandomByte()`: the byte this draw delivers; a free value where `rnd` lists none (log entry 1). -/
def State.randomByte (s : State) : Byte :=
  match s.rnd with
  | b :: _ => b
  | [] => Config.freeByte s.draws

/-- The state after one draw. -/
def State.afterDraw (s : State) : State := { s with rnd := s.rnd.tail, draws := s.draws + 1 }

/-! ## The report interface (R150, R151) -/

/-- `report Unrecognized(w)` (R150; the list of reports is log entry 13). -/
def State.report (s : State) (w : Word) : State := { s with reports := s.reports ++ [w] }

/-! ## The instruction step's fetch (R42, R81) -/

/-- `MemRead(PC, 2)`: the byte at PC in the high half, the byte at PC + 1 (modulo 0x1000) in the low half. -/
def State.fetchWord (s : State) : Word := wordOfBytes (s.readByte s.pc) (s.readByte (s.pc + 0x001#12))

/-- A word laid out in Memory at an address, high byte first (R42). -/
def State.storeWord (s : State) (a : Addr) (w : Word) : State :=
  (s.writeByte a (highByte w)).writeByte (a + 0x001#12) (lowByte w)

/-! ## The tick (R85, R160) -/

/-- One timer's countdown: toward zero, never below (R160). -/
def countDown (t : Byte) : Byte := if t = 0x00#8 then 0x00#8 else t - 0x01#8

/-- The timer step (R160). -/
def State.timerStep (s : State) : State := { s with dt := countDown s.dt, st := countDown s.st }

/-- The levels the host writes at its next frame; a free value where `keyFrames` lists none (log entry 2). -/
def State.nextKeys (s : State) : Keypad :=
  match s.keyFrames with
  | k :: _ => k
  | [] => Config.freeKeys s.frames

/-- The host's frame between two ticks: all 16 key levels are written (R34, R36, R178). -/
def State.hostFrame (s : State) : State :=
  { s with keys := s.nextKeys, keyFrames := s.keyFrames.tail, frames := s.frames + 1 }

/-- The sequencer's slot count set. -/
def State.setSlot (s : State) (n : Nat) : State := { s with slot := n }

/-- The first tick has begun (R36, R175; log entry 17). -/
def State.markStarted (s : State) : State := { s with started := true }

/-- The end of an instruction step: the slot is counted, and a tick has begun; after the last slot of the tick come the timer step and the
host's frame, and the core is between ticks (R85, R86). -/
def State.endSlot (s : State) : State :=
  if s.slot + 1 < Config.ipt then s.markStarted.setSlot (s.slot + 1) else (s.markStarted.timerStep.setSlot 0).hostFrame

/-- Between ticks with no tick requested: the core does nothing (R87). -/
def State.idle (s : State) : Bool := s.slot == 0 && !s.tickRequest

/-! ## Reset (R25, R170 to R172) -/

/-- Reset taken: the core's own state at the values of R25, which abandons a tick in progress. Memory, Display, Keypad, the
random source, the host's requests, the reports and the parameter SHR_FLAG_SRC stay as they are (R171, R172), and the host does not load again
(log entry 17); the reset input is then released (log entry 4). -/
def State.takeReset (s : State) : State :=
  { s with
    v := Vector.replicate 16 0x00#8
    i := 0x000#12
    pc := Config.resetPc
    sp := 0x0#4
    stack := Vector.replicate 16 0x000#12
    dt := 0x00#8
    st := 0x00#8
    slot := 0
    resetRequest := false }

end Sys2Proof.Machine
end

