-- ==== Sys2Proof/Machine/Operands.lean ====
section
/-! DEFINITION. The operand forms: the effective address of a data access, the register range V0 to Vx, the key index, the
decimal digits, the glyph address and the sprite's origin, bits and cells (R63, R126, R131, R140, R122, R123). -/

namespace Sys2Proof.Machine

/-- The effective address `(I + offset) mod 0x1000` (R126, R45). -/
def State.dataAddr (s : State) (offset : Nat) : Addr := s.i + BitVec.ofNat 12 offset

/-- The register range V0 to Vx in ascending order (R124, R125). -/
def regRange (x : RegIdx) : List RegIdx := (List.range (x.toNat + 1)).map (BitVec.ofNat 4)

/-- The key a register names: its low nibble (R140; DESIGN CHOICE of the spec, D8, unsafe: log entry 11). -/
def keyIndex (b : Byte) : KeyIdx := b.extractLsb' 0 4

/-- `Key(k)` (R34). -/
def State.keyPressed (s : State) (k : KeyIdx) : Bool := s.keys[k.toNat]'(k.isLt)

/-- The 16 key indices in ascending order (R142). -/
def keyScan : List KeyIdx := (List.range 16).map (BitVec.ofNat 4)

/-- The lowest pressed key, if any (R142). -/
def State.lowestKey (s : State) : Option KeyIdx := keyScan.find? s.keyPressed

/-- The address of the glyph of a register's low nibble (R122). -/
def glyphAddr (b : Byte) : Addr := BitVec.ofNat 12 (Config.fontBase + Config.glyphBytes * (b.extractLsb' 0 4).toNat)

/-- The three decimal digits of a byte, hundreds first, each with its offset from I (R123). -/
def decimalDigits (b : Byte) : List (Nat × Byte) :=
  [(0, BitVec.ofNat 8 (b.toNat / 100)), (1, BitVec.ofNat 8 (b.toNat / 10 % 10)), (2, BitVec.ofNat 8 (b.toNat % 10))]

/-- Bytes stored at offsets from I, in the order listed (R123, R124). -/
def State.storeAtI (s : State) (cells : List (Nat × Byte)) : State :=
  cells.foldl (fun t c => t.writeByte (s.dataAddr c.1) c.2) s

/-- What `Fx55` stores: each register of the range with its index as the offset (R124). -/
def State.rangeCells (s : State) (x : RegIdx) : List (Nat × Byte) := (regRange x).map (fun r => (r.toNat, s.getV r))

/-- The registers of a range loaded from Memory at I, ascending (R125). -/
def State.loadAtI (s : State) (rs : List RegIdx) : State :=
  rs.foldl (fun t r => t.setV r (s.readByte (s.dataAddr r.toNat))) s

/-! ## The sprite (R131) -/

/-- The origin's column, `Vx mod 64`. -/
def originCol (b : Byte) : Nat := b.toNat % Config.dispCols

/-- The origin's row, `Vy mod 32`. -/
def originRow (b : Byte) : Nat := b.toNat % Config.dispRows

/-- The sprite bit of a column: bit 7 is the leftmost pixel. -/
def spriteBit (b : Byte) (col : Nat) : Bool := b.getLsbD (7 - col)

/-- The index of the display cell of a row and a column (R32). -/
def cellIndex (row col : Nat) : Nat := row * Config.dispCols + col

/-- A drawing in progress: Display, and whether a collision has been found. -/
structure Canvas where
  /-- The cells. -/
  cells : Display
  /-- Whether a set sprite bit has landed on a cell that was on. -/
  hit : Bool
  deriving DecidableEq, Repr

/-- A set sprite bit lands on a cell: the collision is noted, the cell toggled. -/
def Canvas.plot (c : Canvas) (k : Nat) : Canvas :=
  ⟨setPixel c.cells k (!(pixel c.cells k)), c.hit || pixel c.cells k⟩

/-- Cells plotted one after another. -/
def Canvas.plotAll (c : Canvas) (ks : List Nat) : Canvas := ks.foldl Canvas.plot c

/-- The cells under the set bits of one sprite row, left to right; at the right edge the rest of the row is clipped. -/
def rowCells (b : Byte) (py ox : Nat) : List Nat → List Nat
  | [] => []
  | col :: cols =>
    if ox + col ≥ Config.dispCols then []
    else if spriteBit b col then cellIndex py (ox + col) :: rowCells b py ox cols
    else rowCells b py ox cols

/-- The cells a sprite presents to Display, in the order it visits them: the rows top first; at the bottom edge this and all later rows are
clipped and their bytes are not read (DESIGN CHOICE of the spec, D18, safe: log entry 16). -/
def State.spriteCells (s : State) (ox oy : Nat) : List Nat → List Nat
  | [] => []
  | row :: rows =>
    if oy + row ≥ Config.dispRows then []
    else rowCells (s.readByte (s.dataAddr row)) (oy + row) ox (List.range Config.spriteCols) ++ s.spriteCells ox oy rows

end Sys2Proof.Machine
end

