-- ==== Sys2Proof/Machine/Flags.lean ====
section
/-! DEFINITION. The results and flags of the 8-bit ALU and of `Fx1E`: unsigned operands taken to numbers, the exact result computed,
then narrowed; each flag compares the exact values (R12, R112, R113, R121). -/

namespace Sys2Proof.Machine

/-- `(a + b) mod 256` (R101, R106). -/
def sum8 (a b : Byte) : Byte := BitVec.ofNat 8 (a.toNat + b.toNat)

/-- The carry of `8xy4`: the sum exceeds 255 (R106). -/
def carry8 (a b : Byte) : Bool := decide (a.toNat + b.toNat > 255)

/-- `(a - b) mod 256`, by the definition of 00_scope.md section 5.1 (R107, R109). -/
def diff8 (a b : Byte) : Byte := BitVec.ofNat 8 (if a.toNat ≥ b.toNat then a.toNat - b.toNat else a.toNat + 256 - b.toNat)

/-- No borrow: the minuend is at least the subtrahend (R107, R109). -/
def noBorrow (a b : Byte) : Bool := decide (a.toNat ≥ b.toNat)

/-- One place to the right, the vacated bit 0 (R108, R112). -/
def shiftRight1 (b : Byte) : Byte := b >>> 1

/-- One place to the left, the vacated bit 0 (R110, R112). -/
def shiftLeft1 (a : Byte) : Byte := a <<< 1

/-- The flag of `8xy6` under each reading of its row, `a` the old `V[x]` and `b` the old `V[y]` (R108, D7). -/
def shrFlag (src : Config.ShrFlagSrc) (a b : Byte) : Bool :=
  match src with
  | .vx => a.getLsbD 0
  | .vy => b.getLsbD 0

/-- The flag of `8xyE`: bit 7 of the old `V[x]` (R110). -/
def shlFlag (a : Byte) : Bool := a.getLsbD 7

/-- `(I + Vx) mod 0x1000` (R121). -/
def sumI (i : Addr) (a : Byte) : Addr := BitVec.ofNat 12 (i.toNat + a.toNat)

/-- The flag of `Fx1E`: the raw sum exceeds 0xFFF (R121; the 0 half is a DESIGN CHOICE of the spec, D6, unsafe: log
entry 5). -/
def carryI (i : Addr) (a : Byte) : Bool := decide (i.toNat + a.toNat > 0xFFF)

end Sys2Proof.Machine
end

