-- ==== Sys2Proof/Machine/Alu.lean ====
section
/-! DEFINITION. Register loads, the 8-bit ALU and the random load (42_alu.md). Both operands are read before the result is
written, and VF is written last (R13, R113). -/

namespace Sys2Proof.Machine

/-- `6xnn` LD Vx, nn (R100). -/
def execLdImm (x : RegIdx) (nn : Byte) (s : State) : Host.Outcome State Fault Refusal := .next (s.setV x nn)

/-- `7xnn` ADD Vx, nn: no flag (R101). -/
def execAddImm (x : RegIdx) (nn : Byte) (s : State) : Host.Outcome State Fault Refusal := .next (s.setV x (sum8 (s.getV x) nn))

/-- `8xy0` LD Vx, Vy (R102). -/
def execLdReg (x y : RegIdx) (s : State) : Host.Outcome State Fault Refusal := .next (s.setV x (s.getV y))

/-- `8xy1` OR Vx, Vy: no flag (R103). -/
def execOrReg (x y : RegIdx) (s : State) : Host.Outcome State Fault Refusal := .next (s.setV x (s.getV x ||| s.getV y))

/-- `8xy2` AND Vx, Vy: no flag (R104). -/
def execAndReg (x y : RegIdx) (s : State) : Host.Outcome State Fault Refusal := .next (s.setV x (s.getV x &&& s.getV y))

/-- `8xy3` XOR Vx, Vy: no flag (R105). -/
def execXorReg (x y : RegIdx) (s : State) : Host.Outcome State Fault Refusal := .next (s.setV x (s.getV x ^^^ s.getV y))

/-- `8xy4` ADD Vx, Vy (R106). -/
def execAddReg (x y : RegIdx) (s : State) : Host.Outcome State Fault Refusal :=
  .next (s.setResultAndFlag x (sum8 (s.getV x) (s.getV y)) (carry8 (s.getV x) (s.getV y)))

/-- `8xy5` SUB Vx, Vy (R107). -/
def execSubReg (x y : RegIdx) (s : State) : Host.Outcome State Fault Refusal :=
  .next (s.setResultAndFlag x (diff8 (s.getV x) (s.getV y)) (noBorrow (s.getV x) (s.getV y)))

/-- `8xy6` under either reading of its flag: the value shifted is `V[y]` (R108). -/
def State.shiftRightInto (s : State) (src : Config.ShrFlagSrc) (x y : RegIdx) : State :=
  s.setResultAndFlag x (shiftRight1 (s.getV y)) (shrFlag src (s.getV x) (s.getV y))

/-- `8xy6` SHR Vx, Vy, under the reading the parameter SHR_FLAG_SRC selects (R108, D7; log entry 6). -/
def execShrReg (x y : RegIdx) (s : State) : Host.Outcome State Fault Refusal :=
  .next (s.shiftRightInto s.shrFlagSrc x y)

/-- `8xy7` SUBN Vx, Vy (R109). -/
def execSubnReg (x y : RegIdx) (s : State) : Host.Outcome State Fault Refusal :=
  .next (s.setResultAndFlag x (diff8 (s.getV y) (s.getV x)) (noBorrow (s.getV y) (s.getV x)))

/-- `8xyE` SHL Vx, Vy: the value shifted is `V[x]`, and `y` is not used (R110, R68). -/
def execShlReg (x _y : RegIdx) (s : State) : Host.Outcome State Fault Refusal :=
  .next (s.setResultAndFlag x (shiftLeft1 (s.getV x)) (shlFlag (s.getV x)))

/-- `Cxnn` RND Vx, nn: one fresh draw, masked (R111). -/
def execRnd (x : RegIdx) (nn : Byte) (s : State) : Host.Outcome State Fault Refusal :=
  .next (s.afterDraw.setV x (s.randomByte &&& nn))

end Sys2Proof.Machine
end

