-- ==== Sys2Proof/Machine/ControlFlow.lean ====
section
/-! DEFINITION. Control flow (41_control_flow.md): return, jumps, call, the skips on register values. The state an instruction starts
from has PC already advanced past it (R83). -/

namespace Sys2Proof.Machine

/-- `00EE` RET (R90). -/
def execRet (s : State) : Host.Outcome State Fault Refusal := .next s.popPc

/-- `1nnn` JP nnn (R91). -/
def execJp (nnn : Addr) (s : State) : Host.Outcome State Fault Refusal := .next (s.setPc nnn)

/-- `2nnn` CALL nnn (R92). -/
def execCall (nnn : Addr) (s : State) : Host.Outcome State Fault Refusal := .next (s.pushPc.setPc nnn)

/-- `3xnn` SE Vx, nn (R93). -/
def execSeImm (x : RegIdx) (nn : Byte) (s : State) : Host.Outcome State Fault Refusal := .next (s.skipIf (s.getV x == nn))

/-- `4xnn` SNE Vx, nn (R94). -/
def execSneImm (x : RegIdx) (nn : Byte) (s : State) : Host.Outcome State Fault Refusal := .next (s.skipIf (s.getV x != nn))

/-- `5xy0` SE Vx, Vy (R95). -/
def execSeReg (x y : RegIdx) (s : State) : Host.Outcome State Fault Refusal := .next (s.skipIf (s.getV x == s.getV y))

/-- `9xy0` SNE Vx, Vy (R96). -/
def execSneReg (x y : RegIdx) (s : State) : Host.Outcome State Fault Refusal := .next (s.skipIf (s.getV x != s.getV y))

/-- `Bnnn` JP V0, nnn: V0 zero-extended to 12 bits, the sum modulo 0x1000 (R97, R63). -/
def execJpV0 (nnn : Addr) (s : State) : Host.Outcome State Fault Refusal :=
  .next (s.setPc (nnn + (s.getV 0x0#4).setWidth 12))

end Sys2Proof.Machine
end

