-- ==== Sys2Proof/Machine/DisplayDraw.lean ====
section
/-! DEFINITION. The display instructions (44_display.md). -/

namespace Sys2Proof.Machine

/-- `00E0` CLS (R130). -/
def execCls (s : State) : Host.Outcome State Fault Refusal := .next (s.setDisplay clearedDisplay)

/-- `Dxyn` DRW Vx, Vy, n: the origin is read before VF is cleared (R131, D9; log entry 5), the sprite drawn, VF written 1 on a collision. -/
def execDrw (x y : RegIdx) (n : BitVec 4) (s : State) : Host.Outcome State Fault Refusal :=
  let ox := originCol (s.getV x)
  let oy := originRow (s.getV y)
  let cleared := s.setV Config.flagReg 0x00#8
  let drawn := Canvas.plotAll ⟨s.display, false⟩ (cleared.spriteCells ox oy (List.range n.toNat))
  .next ((if drawn.hit then cleared.setV Config.flagReg 0x01#8 else cleared).setDisplay drawn.cells)

end Sys2Proof.Machine
end

