-- ==== Sys2Proof/Machine/IndexMemory.lean ====
section
/-! DEFINITION. The index register and the transfers between registers and Memory (43_index_memory.md). I is left unchanged by
the three transfers (R126). -/

namespace Sys2Proof.Machine

/-- `Annn` LD I, nnn (R120). -/
def execLdI (nnn : Addr) (s : State) : Host.Outcome State Fault Refusal := .next (s.setI nnn)

/-- `Fx1E` ADD I, Vx: VF always written, last (R121, D6). -/
def execAddI (x : RegIdx) (s : State) : Host.Outcome State Fault Refusal :=
  .next ((s.setI (sumI s.i (s.getV x))).setV Config.flagReg (if carryI s.i (s.getV x) then 0x01#8 else 0x00#8))

/-- `Fx29` LD F, Vx (R122). -/
def execLdF (x : RegIdx) (s : State) : Host.Outcome State Fault Refusal := .next (s.setI (glyphAddr (s.getV x)))

/-- `Fx33` LD B, Vx (R123). -/
def execLdB (x : RegIdx) (s : State) : Host.Outcome State Fault Refusal := .next (s.storeAtI (decimalDigits (s.getV x)))

/-- `Fx55` LD [I], Vx (R124). -/
def execStoreRegs (x : RegIdx) (s : State) : Host.Outcome State Fault Refusal := .next (s.storeAtI (s.rangeCells x))

/-- `Fx65` LD Vx, [I] (R125). -/
def execLoadRegs (x : RegIdx) (s : State) : Host.Outcome State Fault Refusal := .next (s.loadAtI (regRange x))

end Sys2Proof.Machine
end

