-- ==== Sys2Proof/Machine/KeypadTimers.lean ====
section
/-! DEFINITION. The keypad and timer instructions (45_keypad_timers.md). -/

namespace Sys2Proof.Machine

/-- `Ex9E` SKP Vx (R140). -/
def execSkp (x : RegIdx) (s : State) : Host.Outcome State Fault Refusal := .next (s.skipIf (s.keyPressed (keyIndex (s.getV x))))

/-- `ExA1` SKNP Vx (R141). -/
def execSknp (x : RegIdx) (s : State) : Host.Outcome State Fault Refusal := .next (s.skipIf (!(s.keyPressed (keyIndex (s.getV x)))))

/-- `Fx07` LD Vx, DT (R143). -/
def execLdVxDt (x : RegIdx) (s : State) : Host.Outcome State Fault Refusal := .next (s.setV x s.dt)

/-- `Fx0A` LD Vx, K: the lowest pressed key, or PC back on the instruction (R142). -/
def execLdVxK (x : RegIdx) (s : State) : Host.Outcome State Fault Refusal :=
  match s.lowestKey with
  | some k => .next (s.setV x (k.setWidth 8))
  | none => .next s.retreatPc

/-- `Fx15` LD DT, Vx (R144). -/
def execLdDtVx (x : RegIdx) (s : State) : Host.Outcome State Fault Refusal := .next (s.setDt (s.getV x))

/-- `Fx18` LD ST, Vx (R145). -/
def execLdStVx (x : RegIdx) (s : State) : Host.Outcome State Fault Refusal := .next (s.setSt (s.getV x))

end Sys2Proof.Machine
end

