-- ==== Sys2Proof/Machine/Unrecognized.lean ====
section
/-! DEFINITION. The catch-all decoder outcome (60_exceptions.md). -/

namespace Sys2Proof.Machine

/-- UNRECOGNIZED: the word is reported, and nothing else changes (R150). -/
def execUnrecognized (w : Word) (s : State) : Host.Outcome State Fault Refusal := .next (s.report w)

end Sys2Proof.Machine
end

