-- ==== Sys2Proof/Machine/Cycle.lean ====
section
/-! DEFINITION. The instruction step (R80 to R83) and what stands around it: the reset input, idling between ticks, the slot count
with the timer step and the host's frame at a tick's end (R85 to R87, R172). -/

namespace Sys2Proof.Machine

/-- An instruction step: fetch, decode, execute (R80). -/
def State.instructionStep (s : State) : Host.Outcome State Fault Refusal := exec (decodeWord s.fetchWord) s.advancePc

/-- An instruction step as one slot of a tick: the step, then the end of the slot (R85). -/
def State.slotStep (s : State) : Host.Outcome State Fault Refusal :=
  match s.instructionStep with
  | .next t => .next t.endSlot
  | .fault r => .fault r
  | .refused r => .refused r

/-- One step of the machine: reset where it is asserted (R172, the only event that overrides an instruction step, R153), nothing
where the core is idle and no tick is requested (R87), else one slot of a tick. -/
def State.machineStep (s : State) : Host.Outcome State Fault Refusal :=
  if s.resetRequest then .next s.takeReset
  else if s.idle then .next s
  else s.slotStep

end Sys2Proof.Machine
end

