-- ==== Sys2Proof/Machine/Step.lean ====
section
/-! DEFINITION. The step, and the placing of one instruction where the next step fetches it. -/

namespace Sys2Proof.Machine

/-- One step of the machine: one instruction step of a tick with what the tick adds to it, a reset, or idling (R80, R85, R87, R172). -/
def step (s : State) : Host.Outcome State Fault Refusal := s.machineStep

/-- A word of `nbits` bits placed at PC as the hardware stores it, high byte first, the bits at or above `nbits` zero; and what the next step
needs in order to fetch it: a tick requested and reset released (log entries 3, 4). It stands for the host's load and first tick request (R175, R176). -/
def State.withFetchWord (s : State) (nbits w : Nat) : State :=
  { s.storeWord s.pc (BitVec.ofNat 16 (w % 2 ^ nbits)) with tickRequest := true, resetRequest := false }

end Sys2Proof.Machine
end

