-- ==== Sys2Proof/Machine/HostMoves.lean ====
section
/-! DEFINITION. What the host can do to the machine from outside a step (R30, R33, R36, R88, R175 to R178): load a program and a font
before the first tick, write the key levels, request ticks or stop, assert reset, read the display; and the whole tick it asks for (R85).
The host has no other move (R36; DESIGN CHOICE of the spec, unsafe: log entry 17). -/

namespace Sys2Proof.Machine

/-- Bytes copied into Memory at consecutive addresses. -/
def State.loadBytes (s : State) : Addr → List Byte → State
  | _, [] => s
  | a, b :: bs => (s.writeByte a b).loadBytes (a + 0x001#12) bs

/-- The core is between ticks: no slot of a tick is executed yet. The host's moves other than reset are given only here; within a tick it has
none (R36, R86). Those that load Memory are given before the first tick only. -/
def State.betweenTicks (s : State) : Bool := s.slot == 0

/-- The first tick has not begun: the host loads Memory now or not at all (R36, R175; 40_cycle.md section 4; log entry 17). -/
def State.beforeFirstTick (s : State) : Bool := s.betweenTicks && !s.started

/-- `load_program(bytes)`: byte `j` at `0x200 + j`, before the first tick alone (R36, R175, R176). A program
that does not fit is out of contract (R176), and there is no move that loads it: DESIGN CHOICE, safe, log entry 18. -/
def State.loadProgram (s : State) (bs : List Byte) : Option State :=
  if s.beforeFirstTick && decide (bs.length ≤ Config.maxProgram) then some (s.loadBytes Config.resetPc bs) else none

/-- The font's 80 bytes, glyph of digit `d` at `5 * d`; the byte values are the host's (R46, R177). Loaded before the
first tick alone (R36, R175). -/
def State.loadFont (s : State) (font : Vector Byte 80) : Option State :=
  if s.beforeFirstTick then some (s.loadBytes (BitVec.ofNat 12 Config.fontBase) font.toList) else none

/-- The host writes all 16 key levels, between ticks (R34, R36, R86). -/
def State.hostSetKeys (s : State) (k : Keypad) : Option State := if s.betweenTicks then some { s with keys := k } else none

/-- The host requests the next tick, or stops, between ticks (R85, R86, R88). -/
def State.hostRequestTicks (s : State) (on : Bool) : Option State :=
  if s.betweenTicks then some { s with tickRequest := on } else none

/-- The host asserts reset, the one input that acts during a tick too; the next step takes it (R86, R170, R172). -/
def State.hostAssertReset (s : State) : State := { s with resetRequest := true }

/-- `get_data()`: the host's snapshot of all 2048 cells, row-major, between ticks (R33, R36). -/
def State.displaySnapshot (s : State) : Option (List Bool) :=
  if s.betweenTicks then some ((List.range Config.dispCells).map (pixel s.display)) else none

/-- Instruction steps one after another, with nothing between them (R80, R85). -/
def State.instructionSteps : Nat → State → Host.Outcome State Fault Refusal
  | 0, s => .next s
  | n + 1, s =>
    match s.instructionStep with
    | .next t => State.instructionSteps n t
    | .fault r => .fault r
    | .refused r => .refused r

/-- A whole tick as the pseudocode of R85 has it: IPT instruction steps, then the timer step; a tick has then begun (log entry 17). -/
def State.tick (s : State) : Host.Outcome State Fault Refusal :=
  match State.instructionSteps Config.ipt s with
  | .next t => .next t.timerStep.markStarted
  | .fault r => .fault r
  | .refused r => .refused r

end Sys2Proof.Machine
end

