-- ==== Sys2Proof/Machine/Accesses.lean ====
section
/-! DEFINITION. The traffic on the memory interface (R40, R41, D18): which byte accesses a fetch and an instruction make, in order. -/

namespace Sys2Proof.Machine

/-- One access on the memory interface: always one byte (R40). -/
inductive MemAccess
  /-- A byte read. -/
  | read (a : Addr)
  /-- A byte written. -/
  | write (a : Addr) (b : Byte)
  deriving DecidableEq, Repr

/-- The fetch: the byte at PC, then the byte at PC + 1 (R41, R81). -/
def State.fetchAccesses (s : State) : List MemAccess := [.read s.pc, .read (s.pc + 0x001#12)]

/-- How many rows of a sprite are on the screen, `min(n, 32 - oy)` (R132). -/
def drawnRows (oy n : Nat) : Nat := min n (Config.dispRows - oy)

/-- The accesses of an instruction's execute part, in the order it makes them; the state is the one it starts from (R41). -/
def State.dataAccesses (i : Instr) (s : State) : List MemAccess :=
  match i with
  | .drw _ y n => (List.range (drawnRows (originRow (s.getV y)) n.toNat)).map (fun row => .read (s.dataAddr row))
  | .ldB x => (decimalDigits (s.getV x)).map (fun c => .write (s.dataAddr c.1) c.2)
  | .storeRegs x => (s.rangeCells x).map (fun c => .write (s.dataAddr c.1) c.2)
  | .loadRegs x => (regRange x).map (fun r => .read (s.dataAddr r.toNat))
  | .cls | .ret | .jp _ | .call _ | .seImm _ _ | .sneImm _ _ | .seReg _ _ | .ldImm _ _ | .addImm _ _ | .ldReg _ _
  | .orReg _ _ | .andReg _ _ | .xorReg _ _ | .addReg _ _ | .subReg _ _ | .shrReg _ _ | .subnReg _ _ | .shlReg _ _
  | .sneReg _ _ | .ldI _ | .jpV0 _ | .rnd _ _ | .skp _ | .sknp _ | .ldVxDt _ | .ldVxK _ | .ldDtVx _
  | .ldStVx _ | .addI _ | .ldF _ | .unrecognized _ => []

end Sys2Proof.Machine
end

