-- ==== Sys2Proof/Safety.lean ====
section
/-! DEFINITION. The terms claims use: the parts of the state and what it is to leave a part unchanged, the invariant, the set of
cells of a sprite (44_display.md R132, R134), runs that report nothing (R151), and the points the source leaves open
(93_implementation_defined.md, "The conservative fault conditions in one list"). -/

namespace Sys2Proof.Machine

/-! ## Frames -/

/-- A part of the state, as small as a claim needs it. -/
inductive StatePart
  /-- One general register. -/
  | reg (r : RegIdx)
  /-- I. -/
  | index
  /-- PC. -/
  | pc
  /-- SP. -/
  | sp
  /-- One call-stack entry. -/
  | entry (k : StackPtr)
  /-- DT. -/
  | dt
  /-- ST. -/
  | st
  /-- The slot count. -/
  | slot
  /-- One byte of Memory. -/
  | byte (a : Addr)
  /-- One display cell. -/
  | cell (k : Nat)
  /-- The key levels. -/
  | keypad
  /-- The random source: its listed bytes and the count of draws. -/
  | random
  /-- What the host will do: its key frames and their count, its tick request, its reset. -/
  | host
  /-- The reports emitted. -/
  | reports
  /-- The parameter SHR_FLAG_SRC. -/
  | shrSource
  /-- Whether the first tick has begun. -/
  | started
  deriving DecidableEq, Repr

/-- Two states hold the same in a part. -/
def agreeOn (p : StatePart) (s t : State) : Prop :=
  match p with
  | .reg r => t.getV r = s.getV r
  | .index => t.i = s.i
  | .pc => t.pc = s.pc
  | .sp => t.sp = s.sp
  | .entry k => t.stack[k.toNat]'(k.isLt) = s.stack[k.toNat]'(k.isLt)
  | .dt => t.dt = s.dt
  | .st => t.st = s.st
  | .slot => t.slot = s.slot
  | .byte a => t.readByte a = s.readByte a
  | .cell k => pixel t.display k = pixel s.display k
  | .keypad => t.keys = s.keys
  | .random => t.rnd = s.rnd ∧ t.draws = s.draws
  | .host => t.keyFrames = s.keyFrames ∧ t.frames = s.frames ∧ t.tickRequest = s.tickRequest ∧ t.resetRequest = s.resetRequest
  | .reports => t.reports = s.reports
  | .shrSource => t.shrFlagSrc = s.shrFlagSrc
  | .started => t.started = s.started

/-- Every part outside a list is unchanged: every register, every byte of Memory and every cell among them. -/
def changesOnly (parts : List StatePart) (s t : State) : Prop := ∀ p, p ∉ parts → agreeOn p s t

/-- The bytes of Memory an instruction stores to, as parts: the addresses its meaning computes (R41, R126). -/
def storedParts (i : Instr) (s : State) : List StatePart :=
  (s.dataAccesses i).filterMap (fun a => match a with | .write a _ => some (.byte a) | .read _ => none)

/-- The addresses an instruction's execute part reads (R41). -/
def readAddrs (i : Instr) (s : State) : List Addr :=
  (s.dataAccesses i).filterMap (fun a => match a with | .read a => some a | .write _ _ => none)

/-! ## The invariant -/

/-- What every step keeps: Memory in its canonical form, the slot count below IPT (R23, D14), every report the report of an
unrecognized word (R150), and no slot of a tick executed unless a tick has begun (R36, log entry 17). -/
def StateInv (s : State) : Prop :=
  s.mem.wf = true ∧ s.slot < Config.ipt ∧ (∀ w ∈ s.reports, unrecognizedWord w = true) ∧ (s.slot ≠ 0 → s.started = true)

/-- The next step is an instruction step: reset is released, and a tick is in progress or requested (R85, R87, R172). -/
def State.running (s : State) : Prop := s.resetRequest = false ∧ (s.slot = 0 → s.tickRequest = true)

/-- A run that reports no unrecognized word (R151). -/
def reportsNothing (s t : State) : Prop := t.reports = s.reports

/-! ## The cells of a sprite -/

/-- The sprite bit of a row and a column is drawn and set, and cell `k` is its cell: the set `S` of R134, with the clipping of R132.
The state is the one `Dxyn` starts from. -/
def spriteCovers (s : State) (x y : RegIdx) (n : BitVec 4) (k : Nat) : Prop :=
  ∃ row col : Nat, row < n.toNat ∧ col < 8
    ∧ (s.getV y).toNat % 32 + row ≤ 31 ∧ (s.getV x).toNat % 64 + col ≤ 63
    ∧ (s.readByte (s.i + BitVec.ofNat 12 row)).getLsbD (7 - col) = true
    ∧ k = ((s.getV y).toNat % 32 + row) * 64 + ((s.getV x).toNat % 64 + col)

/-! ## Points the source leaves open -/

/-- The fetch passes the top of the address space (items 1 and 6 of the list). -/
def State.fetchPassesTop (s : State) : Bool := decide (s.pc.toNat + 2 > 0xFFF)

/-- The execute part, from the state the fetch leaves, meets item 2, 3, 6, 7, 8 or 9 of the list. Items 4 and 5 count outstanding calls,
which is no state of the core (R24). -/
def State.meetsOpenPoint (i : Instr) (s : State) : Bool :=
  let passesTop := decide (s.pc.toNat + 2 > 0xFFF)
  match i with
  | .seImm x nn => (s.getV x == nn) && passesTop
  | .sneImm x nn => (s.getV x != nn) && passesTop
  | .seReg x y => (s.getV x == s.getV y) && passesTop
  | .sneReg x y => (s.getV x != s.getV y) && passesTop
  | .jpV0 nnn => decide (nnn.toNat + (s.getV 0x0#4).toNat > 0xFFF)
  | .addReg x _ | .subReg x _ | .subnReg x _ | .shlReg x _ => x == Config.flagReg
  | .shrReg x y => (x == Config.flagReg) || ((x != y) && ((s.getV x).getLsbD 0 != (s.getV y).getLsbD 0))
  | .drw _ y n => decide (s.i.toNat + drawnRows (originRow (s.getV y)) n.toNat > 0x1000)
  | .skp x => decide ((s.getV x).toNat > 15) || (s.keyPressed (keyIndex (s.getV x)) && passesTop)
  | .sknp x => decide ((s.getV x).toNat > 15) || (!(s.keyPressed (keyIndex (s.getV x))) && passesTop)
  | .ldB _ => decide (s.i.toNat ≥ 0xFFE)
  | .cls | .ret | .jp _ | .call _ | .ldImm _ _ | .addImm _ _ | .ldReg _ _ | .orReg _ _ | .andReg _ _ | .xorReg _ _
  | .ldI _ | .rnd _ _ | .ldVxDt _ | .ldVxK _ | .ldDtVx _ | .ldStVx _ | .addI _ | .ldF _ | .storeRegs _ | .loadRegs _
  | .unrecognized _ => false

/-- A run of instructions given one by one, as a call chain is. -/
def execAll : List Instr → State → Host.Outcome State Fault Refusal
  | [], s => .next s
  | i :: is, s =>
    match exec i s with
    | .next t => execAll is t
    | .fault r => .fault r
    | .refused r => .refused r

end Sys2Proof.Machine
end

