-- ==== Sys2Proof/Certificates/Slice0/Obligations.lean ====
section
/-! DEFINITION. The statements for the provers. In a statement about one instruction, `s` is the state its execute part starts from: PC has
already been advanced past the instruction (R81, R83). `changesOnly parts s t` says that every part of the state outside the list is
unchanged, each register, each byte of Memory and each display cell being a part of its own. -/

open Sys2Proof Sys2Proof.Machine

/-! ## Reset -/

/-- R173: the first fetch after a reset is at 0x200, high byte first, and once reset is released the core does nothing until a tick is requested. Nothing
of Memory is changed on the way: there is no boot code. -/
def Obligations.FirstFetchAfterResetIsAt200 : Prop :=
  ∀ s : State, s.resetRequest = true → ∃ t, step s = .next t
    ∧ t.fetchWord = wordOfBytes (s.readByte 0x200#12) (s.readByte 0x201#12)
    ∧ ∀ released : State, released = { t with resetRequest := false } →
      (t.tickRequest = false → step released = .next released)
      ∧ (t.tickRequest = true →
          ∃ u, exec (decodeWord t.fetchWord) (released.setPc 0x202#12) = .next u ∧ step released = .next u.endSlot)

/-- What reset leaves, at whatever point of a tick it is asserted: the core's registers at the values of 10_state.md section 8 (the zeros are the
spec's decision D10), the tick abandoned, and Memory, Display, Keypad, the random source, the reports and SHR_FLAG_SRC as they were (decision D20).
That the reset input is then released, and that the host may not load again, are this model's conventions, log entries 4 and 17. -/
def Obligations.ResetTakenAtAnySlot : Prop :=
  ∀ s : State, s.resetRequest = true → ∃ t, step s = .next t
    ∧ (∀ r, t.getV r = 0x00#8) ∧ t.i = 0x000#12 ∧ t.pc = 0x200#12 ∧ t.sp = 0x0#4
    ∧ (∀ k : StackPtr, t.stack[k.toNat]'(k.isLt) = 0x000#12) ∧ t.dt = 0x00#8 ∧ t.st = 0x00#8 ∧ t.slot = 0
    ∧ (∀ a, agreeOn (.byte a) s t) ∧ (∀ k, agreeOn (.cell k) s t) ∧ agreeOn .keypad s t ∧ agreeOn .random s t
    ∧ agreeOn .reports s t ∧ agreeOn .shrSource s t ∧ agreeOn .started s t ∧ t.keyFrames = s.keyFrames ∧ t.frames = s.frames
    ∧ t.tickRequest = s.tickRequest ∧ t.resetRequest = false

/-- The state after reset meets the invariant. That Memory lists its bytes in canonical form is the model's own form of it (log entry 7, DESIGN
CHOICE); the bound 11 on the slot count between two steps is decision D14 in the model's own grouping (log entry 14); that a tick in progress has begun is the
model's own bookkeeping of R36 (log entry 17). -/
def Obligations.ResetMeetsTheKeptInvariant : Prop := StateInv State.reset

/-! ## The step and the tick -/

/-- Every step keeps the invariant: Memory stays in canonical form, the slot count below 11, every report is that of an unrecognized
word, and a tick in progress counts as begun. The canonical form is the model's own (log entry 7, DESIGN CHOICE), and so is the slot bound between two steps
(decision D14, log entry 14); that a report is of an unrecognized word is R150's, in a list that is the model's own form of R151 (log entry 13); whether a tick has begun is the model's
own bookkeeping (log entry 17). -/
def Obligations.EveryStepKeepsTheInvariant : Prop := ∀ s t : State, StateInv s → step s = .next t → StateInv t

/-- R81, R42: when the machine runs, the step fetches the byte at PC and the byte at PC + 1 (modulo 0x1000), high byte first, advances PC by 2
modulo 0x1000 whatever the word is, and is the execution of the decoded instruction at the state with PC advanced, followed by the end of the slot.
The two moduli are choices of the spec, decisions D2 and D3 (log entry 11). -/
def Obligations.StepRunsTheDecodedInstruction : Prop :=
  ∀ s : State, s.running → ∀ i, decodeBytes [s.readByte s.pc, s.readByte (s.pc + 0x001#12)] = .ok (i, []) →
    i = decodeWord s.fetchWord
    ∧ s.fetchWord.toNat = 256 * (s.readByte s.pc).toNat + (s.readByte (s.pc + 0x001#12)).toNat
    ∧ s.advancePc.pc.toNat = (s.pc.toNat + 2) % 0x1000 ∧ changesOnly [.pc] s s.advancePc
    ∧ ∃ t, exec i s.advancePc = .next t ∧ step s = .next t.endSlot

/-- What the end of a slot adds to an instruction: a tick has begun, and inside it the slot is counted and nothing else; after the 11th slot the timers
count down, the slot is 0 and the host writes the key levels, a listed frame first (log entries 2, 14 and 17 are this model's
conventions for the frame, for what one step holds and for noting that a tick has begun). -/
def Obligations.EndOfSlotCountsOrClosesTheTick : Prop :=
  ∀ s : State, s.endSlot.started = true
    ∧ (s.slot + 1 < 11 → s.endSlot.slot = s.slot + 1 ∧ changesOnly [.slot, .started] s s.endSlot)
    ∧ (11 ≤ s.slot + 1 → s.endSlot.slot = 0 ∧ s.endSlot.dt.toNat = s.dt.toNat - 1 ∧ s.endSlot.st.toNat = s.st.toNat - 1
        ∧ (∀ k ks, s.keyFrames = k :: ks → s.endSlot.keys = k ∧ s.endSlot.keyFrames = ks)
        ∧ s.endSlot.tickRequest = s.tickRequest ∧ s.endSlot.resetRequest = s.resetRequest
        ∧ changesOnly [.slot, .dt, .st, .keypad, .host, .started] s s.endSlot)

/-- R84: every step completes, whatever the state, the word and Memory; so does the execute part of every instruction; and a key-wait that finds no
key leaves PC where it was. -/
def Obligations.EveryStepCompletes : Prop :=
  (∀ s : State, ∃ t, step s = .next t) ∧ (∀ (i : Instr) (s : State), ∃ t, exec i s = .next t)
    ∧ ∀ (x : RegIdx) (s : State), (∀ k, s.keyPressed k = false) → ∃ t, exec (.ldVxK x) s.advancePc = .next t ∧ t.pc = s.pc

/-- R85, R160: a tick is exactly 11 instruction steps, whatever they are, followed by the timer step, after which the core is between ticks again. The 11
steps of the machine that begin a tick end in the state that 11 instruction steps with nothing between them leave, with each non-zero timer one lower and
the host's next key frame written, the first listed one where one is listed. That the timer step and the host's frame belong to the 11th machine step is
this model's grouping (log entries 14 and 2, DESIGN CHOICE), and so is noting that a tick has begun (log entry 17). -/
def Obligations.TickIsElevenStepsThenTheTimers : Prop :=
  ∀ s : State, s.slot = 0 → s.running → ∃ u t, State.instructionSteps 11 s = .next u
    ∧ Host.Core.run Sys2Proof.core 11 s = .next t
    ∧ t.dt.toNat = (if u.dt.toNat > 0 then u.dt.toNat - 1 else 0)
    ∧ t.st.toNat = (if u.st.toNat > 0 then u.st.toNat - 1 else 0)
    ∧ t.slot = 0 ∧ t.started = true ∧ t.keys = u.nextKeys ∧ t.keyFrames = u.keyFrames.tail ∧ t.frames = u.frames + 1
    ∧ (∀ k ks, u.keyFrames = k :: ks → t.keys = k ∧ t.keyFrames = ks)
    ∧ t.tickRequest = u.tickRequest ∧ t.resetRequest = u.resetRequest ∧ changesOnly [.dt, .st, .keypad, .host, .started] u t
    ∧ State.tick s = .next u.timerStep.markStarted ∧ changesOnly [.dt, .st] u u.timerStep

/-- The key levels do not change before the last slot of a tick is done (10_state.md R34, derived there from R36). -/
def Obligations.KeysAreFrozenWithinATick : Prop :=
  ∀ s t : State, step s = .next t → s.slot + 1 < 11 → t.keys = s.keys

/-- Between ticks, with no tick requested and reset released, the core holds all of its state (40_cycle.md R87, derived there). -/
def Obligations.IdleCoreHoldsItsState : Prop :=
  ∀ s : State, s.resetRequest = false → s.slot = 0 → s.tickRequest = false → step s = .next s

/-- The timers change in a step only by reset, by the instruction that loads them, or at the end of a tick (10_state.md R19, R20). -/
def Obligations.TimersMoveOnlyByLoadOrTickEnd : Prop :=
  ∀ s t : State, step s = .next t → s.resetRequest = false → s.slot + 1 < 11 →
    (t.dt ≠ s.dt → ∃ x, decodeWord s.fetchWord = .ldDtVx x) ∧ (t.st ≠ s.st → ∃ x, decodeWord s.fetchWord = .ldStVx x)

/-- A word placed where the machine fetches is the word the next step runs (log entry 3 is this model's convention). -/
def Obligations.PlacedWordIsFetchedNext : Prop :=
  ∀ (s : State) (w : Word), (s.withFetchWord 16 w.toNat).fetchWord = w ∧ (s.withFetchWord 16 w.toNat).running
    ∧ decodeTableWord 16 w.toNat = some (decodeWord w)
    ∧ changesOnly [.byte s.pc, .byte (s.pc + 0x001#12), .host] s (s.withFetchWord 16 w.toNat)

/-! ## Encoding -/

/-- Decoding an encoded well-formed instruction gives it back, with every operand at every value, and so do its bytes in front of any others. -/
def Obligations.DecodeOfEncodeIsTheInstruction : Prop :=
  ∀ i : Instr, i.wellFormed = true →
    decodeWord (encode i) = i ∧ ∀ rest, decodeBytes (encodeBytes i ++ rest) = .ok (i, rest)

/-- Every word is the encoding of what it decodes to, and what it decodes to is well formed. -/
def Obligations.EncodeOfDecodeIsTheWord : Prop :=
  ∀ w : Word, encode (decodeWord w) = w ∧ (decodeWord w).wellFormed = true

/-- The decoder gives a word the instruction of the one row of the opcode map that the word matches, and the catch-all row when it matches none
(30_encoding.md section 4, R64 to R66; disjointness is derived there). Rows 11 to 17, which operation each of the fourth nibbles 1 to 7 of family 8
selects, are R67's, PRESUMED by the spec (log entry 15). -/
def Obligations.DecoderFollowsTheOpcodeMap : Prop :=
  ∀ w : Word,
    (∀ (k : Nat) (r : OpcodeRow), opcodeRows[k]? = some r → (w &&& r.mask = r.value ↔ (decodeWord w).rowNumber = k + 1))
    ∧ ((∀ r ∈ opcodeRows, w &&& r.mask ≠ r.value) ↔ decodeWord w = .unrecognized w)

/-- The unrecognized words are exactly those of the family table of 30_encoding.md section 5. -/
def Obligations.UnrecognizedWordsAreTheTablesWords : Prop :=
  ∀ w : Word, decodeWord w = .unrecognized w ↔ unrecognizedWord w = true

/-- Words written out from the patterns decode to the instructions they stand for, one at least of each of the 16 families. The nibble of family 8 is
R67's (PRESUMED by the spec, log entry 15). -/
def Obligations.SampleWordsDecodeAsTheirPatterns : Prop :=
  decodeWord 0x00E0#16 = .cls ∧ decodeWord 0x00EE#16 = .ret ∧ decodeWord 0x1ABC#16 = .jp 0xABC#12
    ∧ decodeWord 0x2210#16 = .call 0x210#12 ∧ decodeWord 0x3F01#16 = .seImm 0xF#4 0x01#8
    ∧ decodeWord 0x4311#16 = .sneImm 0x3#4 0x11#8 ∧ decodeWord 0x5120#16 = .seReg 0x1#4 0x2#4
    ∧ decodeWord 0x6005#16 = .ldImm 0x0#4 0x05#8 ∧ decodeWord 0x7002#16 = .addImm 0x0#4 0x02#8
    ∧ decodeWord 0x8126#16 = .shrReg 0x1#4 0x2#4 ∧ decodeWord 0x9120#16 = .sneReg 0x1#4 0x2#4
    ∧ decodeWord 0xA210#16 = .ldI 0x210#12 ∧ decodeWord 0xB300#16 = .jpV0 0x300#12 ∧ decodeWord 0xC00F#16 = .rnd 0x0#4 0x0F#8
    ∧ decodeWord 0xD012#16 = .drw 0x0#4 0x1#4 0x2#4 ∧ decodeWord 0xE0A1#16 = .sknp 0x0#4
    ∧ decodeWord 0xF155#16 = .storeRegs 0x1#4 ∧ decodeWord 0x5121#16 = .unrecognized 0x5121#16

/-! ## Control flow -/

/-- R91: `1nnn` sets PC to `nnn`, odd or even, and changes nothing else. -/
def Obligations.JumpSetsPc : Prop :=
  ∀ (nnn : Addr) (s : State), decodeWord (0x1#4 ++ nnn) = .jp nnn
    ∧ ∃ t, exec (.jp nnn) s = .next t ∧ t.pc = nnn ∧ changesOnly [.pc] s t

/-- `00EE`: SP one lower modulo 16, PC the entry it then names, the entry kept (41_control_flow.md section 1; the wrap at SP = 0 is the spec's decision D4). -/
def Obligations.ReturnPopsTheStack : Prop :=
  ∀ s : State, decodeWord 0x00EE#16 = .ret
    ∧ ∃ t, exec .ret s = .next t ∧ t.sp.toNat = (s.sp.toNat + 15) % 16
      ∧ t.pc = s.stack[t.sp.toNat]'(t.sp.isLt) ∧ changesOnly [.sp, .pc] s t

/-- `2nnn`: the advanced PC into the entry SP names, SP one higher modulo 16, PC to `nnn` (41_control_flow.md section 1; the wrap at SP = 15 and the overwriting
of an entry in use are the spec's decision D4). -/
def Obligations.CallPushesTheReturnAddress : Prop :=
  ∀ (nnn : Addr) (s : State), decodeWord (0x2#4 ++ nnn) = .call nnn
    ∧ ∃ t, exec (.call nnn) s = .next t ∧ t.stack[s.sp.toNat]'(s.sp.isLt) = s.pc ∧ t.sp.toNat = (s.sp.toNat + 1) % 16
      ∧ t.pc = nnn ∧ changesOnly [.entry s.sp, .sp, .pc] s t

/-- Up to 16 nested calls all return: after any chain of at most 16 calls and as many returns, PC and SP are what they were before the first call
(10_state.md section 6, R22; the ring is the spec's decision D4). -/
def Obligations.SixteenNestedCallsAllReturn : Prop :=
  ∀ (targets : List Addr) (s : State), targets.length ≤ 16 →
    ∃ t, execAll (targets.map Instr.call ++ List.replicate targets.length Instr.ret) s = .next t
      ∧ t.pc = s.pc ∧ t.sp = s.sp

/-- R93 to R96: a skip adds 2 to the advanced PC, modulo 0x1000, exactly when its comparison holds, and changes nothing
else. The modulus is a choice of the spec, decision D3 (log entry 11). -/
def Obligations.SkipsCompareRegisters : Prop :=
  ∀ (x y : RegIdx) (nn : Byte) (s : State),
    decodeWord (0x3#4 ++ x ++ nn) = .seImm x nn ∧ decodeWord (0x4#4 ++ x ++ nn) = .sneImm x nn
    ∧ decodeWord (0x5#4 ++ x ++ y ++ 0x0#4) = .seReg x y ∧ decodeWord (0x9#4 ++ x ++ y ++ 0x0#4) = .sneReg x y
    ∧ (∃ t, exec (.seImm x nn) s = .next t ∧ changesOnly [.pc] s t
        ∧ t.pc.toNat = if s.getV x = nn then (s.pc.toNat + 2) % 0x1000 else s.pc.toNat)
    ∧ (∃ t, exec (.sneImm x nn) s = .next t ∧ changesOnly [.pc] s t
        ∧ t.pc.toNat = if s.getV x = nn then s.pc.toNat else (s.pc.toNat + 2) % 0x1000)
    ∧ (∃ t, exec (.seReg x y) s = .next t ∧ changesOnly [.pc] s t
        ∧ t.pc.toNat = if s.getV x = s.getV y then (s.pc.toNat + 2) % 0x1000 else s.pc.toNat)
    ∧ (∃ t, exec (.sneReg x y) s = .next t ∧ changesOnly [.pc] s t
        ∧ t.pc.toNat = if s.getV x = s.getV y then s.pc.toNat else (s.pc.toNat + 2) % 0x1000)

/-- `Bnnn`: PC is `nnn` plus V0 modulo 0x1000; VF is not written (41_control_flow.md section 3; the reduction is the spec's decision D3). -/
def Obligations.IndexedJumpAddsV0 : Prop :=
  ∀ (nnn : Addr) (s : State), decodeWord (0xB#4 ++ nnn) = .jpV0 nnn
    ∧ ∃ t, exec (.jpV0 nnn) s = .next t ∧ t.pc.toNat = (nnn.toNat + (s.getV 0x0#4).toNat) % 0x1000 ∧ changesOnly [.pc] s t

/-! ## Loads and the ALU -/

/-- R100, R102: `6xnn` and `8xy0` write Vx and nothing else; Vx may be VF. -/
def Obligations.LoadsWriteTheRegister : Prop :=
  ∀ (x y : RegIdx) (nn : Byte) (s : State),
    decodeWord (0x6#4 ++ x ++ nn) = .ldImm x nn ∧ decodeWord (0x8#4 ++ x ++ y ++ 0x0#4) = .ldReg x y
    ∧ (∃ t, exec (.ldImm x nn) s = .next t ∧ t.getV x = nn ∧ changesOnly [.reg x] s t)
    ∧ (∃ t, exec (.ldReg x y) s = .next t ∧ t.getV x = s.getV y ∧ changesOnly [.reg x] s t)

/-- R101: `7xnn` adds modulo 256 and sets no flag. -/
def Obligations.AddImmediateWrapsWithoutFlag : Prop :=
  ∀ (x : RegIdx) (nn : Byte) (s : State), decodeWord (0x7#4 ++ x ++ nn) = .addImm x nn
    ∧ ∃ t, exec (.addImm x nn) s = .next t ∧ (t.getV x).toNat = ((s.getV x).toNat + nn.toNat) % 256 ∧ changesOnly [.reg x] s t

/-- `8xy1`, `8xy2`, `8xy3`: bitwise, bit by bit; VF is written only as the destination (42_alu.md section 3; that no flag is set is derived there). Which
fourth nibble selects which of the three is R67's, PRESUMED by the spec (log entry 15). -/
def Obligations.LogicIsBitwiseWithoutFlag : Prop :=
  ∀ (x y : RegIdx) (s : State),
    decodeWord (0x8#4 ++ x ++ y ++ 0x1#4) = .orReg x y ∧ decodeWord (0x8#4 ++ x ++ y ++ 0x2#4) = .andReg x y
    ∧ decodeWord (0x8#4 ++ x ++ y ++ 0x3#4) = .xorReg x y
    ∧ (∃ t, exec (.orReg x y) s = .next t ∧ changesOnly [.reg x] s t
        ∧ ∀ b, (t.getV x).getLsbD b = ((s.getV x).getLsbD b || (s.getV y).getLsbD b))
    ∧ (∃ t, exec (.andReg x y) s = .next t ∧ changesOnly [.reg x] s t
        ∧ ∀ b, (t.getV x).getLsbD b = ((s.getV x).getLsbD b && (s.getV y).getLsbD b))
    ∧ (∃ t, exec (.xorReg x y) s = .next t ∧ changesOnly [.reg x] s t
        ∧ ∀ b, (t.getV x).getLsbD b = ((s.getV x).getLsbD b ^^ (s.getV y).getLsbD b))

/-- R106: `8xy4` leaves VF = 1 exactly when the sum of the old values exceeds 255, else 0, for every `x` and `y`; where `x` is not 15, Vx is the sum
modulo 256. That VF is written last, and so holds the carry where `x` is 15, is a choice of the spec (R13, decision D5, log entry 5); the fourth nibble
is R67's, PRESUMED by the spec (log entry 15). -/
def Obligations.AddSetsCarry : Prop :=
  ∀ (x y : RegIdx) (s : State), decodeWord (0x8#4 ++ x ++ y ++ 0x4#4) = .addReg x y
    ∧ ∃ t, exec (.addReg x y) s = .next t ∧ changesOnly [.reg x, .reg 0xF#4] s t
      ∧ (t.getV 0xF#4).toNat = (if (s.getV x).toNat + (s.getV y).toNat > 255 then 1 else 0)
      ∧ (x ≠ 0xF#4 → (t.getV x).toNat = ((s.getV x).toNat + (s.getV y).toNat) % 256)

/-- R107, R109: `8xy5` and `8xy7` leave VF = 1 exactly when there is no borrow, for every `x` and `y`; where `x` is not 15, Vx is the difference modulo
256. That VF is written last, and so holds the flag where `x` is 15, is a choice of the spec (R13, decision D5, log entry 5); the fourth nibbles are
R67's, PRESUMED by the spec (log entry 15). -/
def Obligations.SubtractionsSetNoBorrow : Prop :=
  ∀ (x y : RegIdx) (s : State),
    decodeWord (0x8#4 ++ x ++ y ++ 0x5#4) = .subReg x y ∧ decodeWord (0x8#4 ++ x ++ y ++ 0x7#4) = .subnReg x y
    ∧ (∃ t, exec (.subReg x y) s = .next t ∧ changesOnly [.reg x, .reg 0xF#4] s t
      ∧ (t.getV 0xF#4).toNat = (if (s.getV x).toNat ≥ (s.getV y).toNat then 1 else 0)
      ∧ (x ≠ 0xF#4 → (t.getV x).toNat = ((s.getV x).toNat + 256 - (s.getV y).toNat) % 256))
    ∧ (∃ t, exec (.subnReg x y) s = .next t ∧ changesOnly [.reg x, .reg 0xF#4] s t
      ∧ (t.getV 0xF#4).toNat = (if (s.getV y).toNat ≥ (s.getV x).toNat then 1 else 0)
      ∧ (x ≠ 0xF#4 → (t.getV x).toNat = ((s.getV y).toNat + 256 - (s.getV x).toNat) % 256))

/-- `8xy6`: the value shifted is Vy; the flag is bit 0 of the old Vx or of the old Vy, as the open parameter SHR_FLAG_SRC says, for either value of it
(42_alu.md section 3; 00_scope.md R5, decision D7, log entry 6). That VF is written last is a choice of the spec (decision D5, log entry 5); the fourth
nibble is R67's, PRESUMED by the spec (log entry 15). -/
def Obligations.ShiftRightTakesVyAndFlagsTheSource : Prop :=
  ∀ (x y : RegIdx) (s : State), decodeWord (0x8#4 ++ x ++ y ++ 0x6#4) = .shrReg x y
    ∧ ∃ t, exec (.shrReg x y) s = .next t ∧ changesOnly [.reg x, .reg 0xF#4] s t
      ∧ (s.shrFlagSrc = .vx → (t.getV 0xF#4).toNat = (s.getV x).toNat % 2)
      ∧ (s.shrFlagSrc = .vy → (t.getV 0xF#4).toNat = (s.getV y).toNat % 2)
      ∧ (x ≠ 0xF#4 → (t.getV x).toNat = (s.getV y).toNat / 2)

/-- The two readings of `8xy6`'s flag leave the same state exactly where bit 0 of Vx and of Vy agree; so they do when `y = x` (90_conflicts.md C2). -/
def Obligations.ShiftRightReadingsAgreeWhereBitsDo : Prop :=
  ∀ (x y : RegIdx) (s : State),
    (s.shiftRightInto .vx x y = s.shiftRightInto .vy x y ↔ (s.getV x).toNat % 2 = (s.getV y).toNat % 2)
    ∧ s.shiftRightInto .vx x x = s.shiftRightInto .vy x x

/-- R110: `8xyE` shifts Vx, flags its old bit 7, and Vy has no influence for any `y`. That VF is written last, and so holds the flag where `x` is 15, is a
choice of the spec (R13, decision D5, log entry 5). -/
def Obligations.ShiftLeftTakesVx : Prop :=
  ∀ (x y : RegIdx) (s : State), decodeWord (0x8#4 ++ x ++ y ++ 0xE#4) = .shlReg x y
    ∧ (∀ z, exec (.shlReg x z) s = exec (.shlReg x y) s)
    ∧ ∃ t, exec (.shlReg x y) s = .next t ∧ changesOnly [.reg x, .reg 0xF#4] s t
      ∧ (t.getV 0xF#4).toNat = (s.getV x).toNat / 128
      ∧ (x ≠ 0xF#4 → (t.getV x).toNat = (s.getV x).toNat * 2 % 256)

/-- `Cxnn`: Vx is the byte drawn, masked by `nn`, and the draw is counted, so the next one is fresh. For every byte the source may deliver next that byte is
the one used and is used up; where none is listed the byte is the free value of this draw, whatever it is; and whatever is drawn, a bit where `nn` has 0
is 0 (42_alu.md section 4; the draw is free, decision D11; the counter is the model's own, log entry 1). -/
def Obligations.RandomByteIsMasked : Prop :=
  ∀ (x : RegIdx) (nn : Byte) (s : State), decodeWord (0xC#4 ++ x ++ nn) = .rnd x nn
    ∧ ∃ t, exec (.rnd x nn) s = .next t ∧ changesOnly [.reg x, .random] s t ∧ t.draws = s.draws + 1
      ∧ (∀ b bs, s.rnd = b :: bs → t.getV x = b &&& nn ∧ t.rnd = bs)
      ∧ (s.rnd = [] → t.getV x = Config.freeByte s.draws &&& nn ∧ t.rnd = [])
      ∧ (∀ k, nn.getLsbD k = false → (t.getV x).getLsbD k = false)

/-! ## The index register and Memory -/

/-- R120, R122: `Annn` sets I; `Fx29` sets I to five times the low nibble of Vx. -/
def Obligations.IndexLoads : Prop :=
  ∀ (nnn : Addr) (x : RegIdx) (s : State),
    decodeWord (0xA#4 ++ nnn) = .ldI nnn ∧ decodeWord (0xF#4 ++ x ++ 0x29#8) = .ldF x
    ∧ (∃ t, exec (.ldI nnn) s = .next t ∧ t.i = nnn ∧ changesOnly [.index] s t)
    ∧ (∃ t, exec (.ldF x) s = .next t ∧ t.i.toNat = 5 * ((s.getV x).toNat % 16) ∧ changesOnly [.index] s t)

/-- `Fx1E`: I is the sum modulo 0x1000; VF is 1 when the raw sum exceeds 0xFFF and 0 otherwise, the old VF being the operand where `x` is 15
(43_index_memory.md section 2; the 0 half is the spec's decision D6, log entry 5). -/
def Obligations.AddToIndexSetsOverflow : Prop :=
  ∀ (x : RegIdx) (s : State), decodeWord (0xF#4 ++ x ++ 0x1E#8) = .addI x
    ∧ ∃ t, exec (.addI x) s = .next t ∧ changesOnly [.index, .reg 0xF#4] s t
      ∧ t.i.toNat = (s.i.toNat + (s.getV x).toNat) % 0x1000
      ∧ (t.getV 0xF#4).toNat = (if s.i.toNat + (s.getV x).toNat > 0xFFF then 1 else 0)

/-- `Fx33`: the hundreds, tens and ones of Vx at I, I + 1 and I + 2, each address modulo 0x1000, and no other byte (43_index_memory.md section 3; the wrap is
the spec's decision D2). -/
def Obligations.DecimalDigitsAreStored : Prop :=
  ∀ (x : RegIdx) (s : State), decodeWord (0xF#4 ++ x ++ 0x33#8) = .ldB x
    ∧ ∃ t, exec (.ldB x) s = .next t
      ∧ (t.readByte (s.dataAddr 0)).toNat = (s.getV x).toNat / 100
      ∧ (t.readByte (s.dataAddr 1)).toNat = (s.getV x).toNat / 10 % 10
      ∧ (t.readByte (s.dataAddr 2)).toNat = (s.getV x).toNat % 10
      ∧ (∀ k < 3, (s.dataAddr k).toNat = (s.i.toNat + k) % 0x1000)
      ∧ changesOnly [.byte (s.dataAddr 0), .byte (s.dataAddr 1), .byte (s.dataAddr 2)] s t

/-- R124: `Fx55` stores V0 to Vx at I, I + 1, ..., each address modulo 0x1000, and changes no other byte, no register and not I. -/
def Obligations.StoreRegistersAtIndex : Prop :=
  ∀ (x : RegIdx) (s : State), decodeWord (0xF#4 ++ x ++ 0x55#8) = .storeRegs x
    ∧ ∃ t, exec (.storeRegs x) s = .next t
      ∧ (∀ r : RegIdx, r ≤ x → t.readByte (s.dataAddr r.toNat) = s.getV r ∧ (s.dataAddr r.toNat).toNat = (s.i.toNat + r.toNat) % 0x1000)
      ∧ (∀ p, (∀ r : RegIdx, r ≤ x → p ≠ .byte (s.dataAddr r.toNat)) → agreeOn p s t)

/-- R125: `Fx65` loads V0 to Vx from I, I + 1, ..., each address modulo 0x1000, and changes no other register, no byte and not I. -/
def Obligations.LoadRegistersFromIndex : Prop :=
  ∀ (x : RegIdx) (s : State), decodeWord (0xF#4 ++ x ++ 0x65#8) = .loadRegs x
    ∧ ∃ t, exec (.loadRegs x) s = .next t
      ∧ (∀ r : RegIdx, r ≤ x → t.getV r = s.readByte (s.dataAddr r.toNat) ∧ (s.dataAddr r.toNat).toNat = (s.i.toNat + r.toNat) % 0x1000)
      ∧ (∀ p, (∀ r : RegIdx, r ≤ x → p ≠ .reg r) → agreeOn p s t)

/-- A store of V0 to Vx followed by a load of V0 to Vx gives the registers back, also where the block wraps past 0xFFF, from every state that still holds I
and Memory as the store left them (95_test_vectors.md X7). -/
def Obligations.StoreThenLoadGivesRegistersBack : Prop :=
  ∀ (x : RegIdx) (s t t' : State), exec (.storeRegs x) s = .next t → t'.i = t.i → (∀ a, agreeOn (.byte a) t t') →
    ∃ u, exec (.loadRegs x) t' = .next u ∧ ∀ r : RegIdx, r ≤ x → u.getV r = s.getV r

/-- A word stored by `Fx55` is the word the very next fetch at its address returns (20_memory.md R51, derived there). -/
def Obligations.StoredBytesAreFetchedAtOnce : Prop :=
  ∀ (x r : RegIdx) (s t : State), exec (.storeRegs x) s = .next t → r < x → t.pc = s.dataAddr r.toNat →
    t.fetchWord = wordOfBytes (s.getV r) (s.getV (r + 0x1#4))

/-- What an instruction does depends on Memory only through the bytes it reads (20_memory.md R41, derived there): from two states that differ only in
other bytes of Memory it leaves the same registers, PC, stack, timers, Display and reports, and a byte that held the same before holds the same
after. -/
def Obligations.OnlyTheBytesReadMatter : Prop :=
  ∀ (i : Instr) (s t : State) (m : Memory), exec i s = .next t → (∀ a ∈ readAddrs i s, m.read a.toNat = s.readByte a) →
    ∃ t', exec i { s with mem := m } = .next t' ∧ (∀ p, (∀ a, p ≠ .byte a) → agreeOn p t t')
      ∧ ∀ a : Addr, m.read a.toNat = s.readByte a → t'.readByte a = t.readByte a

/-- Two memories in canonical form that read alike at every address are the same data (the model's own form of the 4096 bytes of 10_state.md R31,
log entry 7). -/
def Obligations.MemoriesThatReadAlikeAreEqual : Prop :=
  ∀ m m' : Memory, m.wf = true → m'.wf = true → (∀ a, m.read a = m'.read a) → m = m'

/-- Before the first tick, a program of at most 3584 bytes is loaded with its byte `j` at 0x200 + j and nothing else touched (70_reset_and_hazards.md section 2,
R176). A longer one is out of contract there; that the model gives no move that loads it is its own refusal, the one 93_implementation_defined.md U6
offers (log entry 18). The field that says whether the first tick has begun is the model's own (log entry 17). -/
def Obligations.LoadedProgramStandsFrom200 : Prop :=
  ∀ (bs : List Byte) (s : State),
    (s.slot = 0 → s.started = false → bs.length ≤ 3584 → ∃ t, s.loadProgram bs = some t
      ∧ (∀ (j : Nat) (h : j < bs.length), t.readByte (BitVec.ofNat 12 (0x200 + j)) = bs[j])
      ∧ (∀ a : Addr, a.toNat < 0x200 ∨ 0x200 + bs.length ≤ a.toNat → t.readByte a = s.readByte a)
      ∧ ∀ p, (∀ a, p ≠ .byte a) → agreeOn p s t)
    ∧ (3584 < bs.length → s.loadProgram bs = none)

/-- Once the host has loaded the font's 80 bytes at 0x000, before the first tick (log entry 17), `Fx29` points I at the five bytes of the glyph of the low nibble of Vx, whatever
the font (20_memory.md R46, 43_index_memory.md R122). -/
def Obligations.DigitAddressIsTheLoadedGlyph : Prop :=
  ∀ (font : Vector Byte 80) (x : RegIdx) (s : State), s.slot = 0 → s.started = false → ∃ loaded t, s.loadFont font = some loaded
    ∧ exec (.ldF x) loaded = .next t
    ∧ ∀ row : Nat, row < 5 → font[5 * ((s.getV x).toNat % 16) + row]? = some (t.readByte (t.dataAddr row))

/-! ## Display -/

/-- R130: `00E0` turns every cell off and changes nothing else. -/
def Obligations.ClearTurnsEveryCellOff : Prop :=
  ∀ s : State, decodeWord 0x00E0#16 = .cls
    ∧ ∃ t, exec .cls s = .next t ∧ (∀ k, pixel t.display k = false) ∧ (∀ p, (∀ k, p ≠ .cell k) → agreeOn p s t)

/-- `Dxyn` as a whole (44_display.md R132, R134, derived there from R131): every cell of the clipped sprite is inverted, every other cell unchanged, VF is 1
exactly when a cell of the sprite was on, else 0, and nothing else changes. The origin is read before VF is cleared (decision D9, log
entry 5), and a sprite row's address wraps at the top of Memory (decision D2, log entry 11). -/
def Obligations.DrawInvertsTheSpritesCells : Prop :=
  ∀ (x y : RegIdx) (n : BitVec 4) (s : State), decodeWord (0xD#4 ++ x ++ y ++ n) = .drw x y n
    ∧ ∃ t, exec (.drw x y n) s = .next t
      ∧ (∀ k, spriteCovers s x y n k → pixel t.display k = !(pixel s.display k))
      ∧ (∀ k, ¬ spriteCovers s x y n k → pixel t.display k = pixel s.display k)
      ∧ ((∃ k, spriteCovers s x y n k ∧ pixel s.display k = true) → t.getV 0xF#4 = 0x01#8)
      ∧ ((∀ k, spriteCovers s x y n k → pixel s.display k = false) → t.getV 0xF#4 = 0x00#8)
      ∧ (∀ p, p ≠ .reg 0xF#4 → (∀ k, p ≠ .cell k) → agreeOn p s t)

/-- Drawing the same sprite twice restores Display, and the second VF is 1 exactly when a cell of the sprite was off before the first (44_display.md R134,
derived there). -/
def Obligations.DrawingTwiceRestoresTheDisplay : Prop :=
  ∀ (x y : RegIdx) (n : BitVec 4) (s t u : State), x ≠ 0xF#4 → y ≠ 0xF#4 →
    exec (.drw x y n) s = .next t → exec (.drw x y n) t = .next u →
    u.display = s.display ∧ (u.getV 0xF#4 = 0x01#8 ↔ ∃ k, spriteCovers s x y n k ∧ pixel s.display k = false)

/-- What `Dxyn` draws stays on the screen: the cells it presents to Display, the ones its drawing is the plotting of, have indices `py * 64 + px` with
`py` at most 31 and `px` at most 63, so below 2048, and no cell is presented twice; and the top-left bit is never clipped: where it is set its cell is
presented, and inverted (44_display.md R131 to R133, derived there). -/
def Obligations.SpriteCellsAreOnTheScreen : Prop :=
  ∀ (x y : RegIdx) (n : BitVec 4) (s : State), ∃ t ks, exec (.drw x y n) s = .next t
    ∧ ks = s.spriteCells ((s.getV x).toNat % 64) ((s.getV y).toNat % 32) (List.range n.toNat)
    ∧ t.display = (Canvas.plotAll ⟨s.display, false⟩ ks).cells
    ∧ (∀ k ∈ ks, k < 2048 ∧ ∃ py px : Nat, py ≤ 31 ∧ px ≤ 63 ∧ k = py * 64 + px) ∧ ks.Nodup
    ∧ (0 < n.toNat → (s.readByte s.i).getLsbD 7 = true →
        ∃ k, k = (s.getV y).toNat % 32 * 64 + (s.getV x).toNat % 64 ∧ k ∈ ks ∧ pixel t.display k = !(pixel s.display k))

/-! ## Keypad and timers -/

/-- `Ex9E` and `ExA1`: skip when the key of the low nibble of Vx is pressed, or is not (45_keypad_timers.md section 1; the low nibble is the spec's
decision D8, the modulus its decision D3; log entry 11). -/
def Obligations.SkipsTestTheKey : Prop :=
  ∀ (x : RegIdx) (s : State),
    decodeWord (0xE#4 ++ x ++ 0x9E#8) = .skp x ∧ decodeWord (0xE#4 ++ x ++ 0xA1#8) = .sknp x
    ∧ ∀ k : KeyIdx, k.toNat = (s.getV x).toNat % 16 →
      (∃ t, exec (.skp x) s = .next t ∧ changesOnly [.pc] s t
        ∧ t.pc.toNat = if s.keyPressed k = true then (s.pc.toNat + 2) % 0x1000 else s.pc.toNat)
      ∧ (∃ t, exec (.sknp x) s = .next t ∧ changesOnly [.pc] s t
        ∧ t.pc.toNat = if s.keyPressed k = true then s.pc.toNat else (s.pc.toNat + 2) % 0x1000)

/-- R142: `Fx0A` puts the least pressed key into Vx and changes nothing else; with no key pressed it sets PC back by 2, modulo 0x1000, and changes nothing
else. As a step that finds no key it leaves everything, PC included, as it was, and has used one of the 11 slots of its tick. The modulus is a
choice of the spec, decision D3 (log entry 11). -/
def Obligations.KeyWaitTakesTheLeastKey : Prop :=
  ∀ (x : RegIdx) (s : State), decodeWord (0xF#4 ++ x ++ 0x0A#8) = .ldVxK x
    ∧ (∀ k : KeyIdx, s.keyPressed k = true → (∀ j, j < k → s.keyPressed j = false) →
        ∃ t, exec (.ldVxK x) s = .next t ∧ (t.getV x).toNat = k.toNat ∧ changesOnly [.reg x] s t)
    ∧ ((∀ k, s.keyPressed k = false) →
        (∃ t, exec (.ldVxK x) s = .next t ∧ t.pc.toNat = (s.pc.toNat + 0xFFE) % 0x1000 ∧ changesOnly [.pc] s t)
        ∧ (s.running → decodeWord s.fetchWord = .ldVxK x → ∃ t, step s = .next t.endSlot ∧ changesOnly [] s t
            ∧ t.endSlot.slot = (if s.slot + 1 < 11 then s.slot + 1 else 0)))

/-- R143 to R145: `Fx07` reads DT into Vx, `Fx15` and `Fx18` write DT and ST from Vx, and nothing else changes. -/
def Obligations.TimerTransfers : Prop :=
  ∀ (x : RegIdx) (s : State),
    decodeWord (0xF#4 ++ x ++ 0x07#8) = .ldVxDt x ∧ decodeWord (0xF#4 ++ x ++ 0x15#8) = .ldDtVx x
    ∧ decodeWord (0xF#4 ++ x ++ 0x18#8) = .ldStVx x
    ∧ (∃ t, exec (.ldVxDt x) s = .next t ∧ t.getV x = s.dt ∧ changesOnly [.reg x] s t)
    ∧ (∃ t, exec (.ldDtVx x) s = .next t ∧ t.dt = s.getV x ∧ changesOnly [.dt] s t)
    ∧ (∃ t, exec (.ldStVx x) s = .next t ∧ t.st = s.getV x ∧ changesOnly [.st] s t)

/-! ## Unrecognized words -/

/-- R150: an unrecognized word is reported and changes nothing else; as a step it has advanced PC by 2 modulo 0x1000, and it counts as one of the 11 of its
tick. The modulus is a choice of the spec, decision D3 (log entry 11); the list of reports is the model's own form of R151 (log entry 13). -/
def Obligations.UnrecognizedIsReportedNoOp : Prop :=
  (∀ (w : Word) (s : State), ∃ t, exec (.unrecognized w) s = .next t ∧ t.reports = s.reports ++ [w] ∧ changesOnly [.reports] s t)
    ∧ ∀ s : State, s.running → unrecognizedWord s.fetchWord = true →
      ∃ t, step s = .next t.endSlot ∧ t.reports = s.reports ++ [s.fetchWord] ∧ t.pc.toNat = (s.pc.toNat + 2) % 0x1000
        ∧ changesOnly [.reports, .pc] s t ∧ t.endSlot.slot = (if s.slot + 1 < 11 then s.slot + 1 else 0)

/-! ## Who writes what -/

/-- I is written by `Annn`, `Fx1E` and `Fx29` alone (10_state.md R17), the call stack by `2nnn` alone (R21), SP by `2nnn` and `00EE` alone (R18, decision D4),
DT by `Fx15` and ST by `Fx18` alone among instructions (R19, R20). -/
def Obligations.WritersOfIndexStackAndTimers : Prop :=
  ∀ (i : Instr) (s t : State), exec i s = .next t →
    (t.i ≠ s.i → (∃ nnn, i = .ldI nnn) ∨ (∃ x, i = .addI x) ∨ ∃ x, i = .ldF x)
    ∧ (t.stack ≠ s.stack → ∃ nnn, i = .call nnn)
    ∧ (t.sp ≠ s.sp → i = .ret ∨ ∃ nnn, i = .call nnn)
    ∧ (t.dt ≠ s.dt → ∃ x, i = .ldDtVx x) ∧ (t.st ≠ s.st → ∃ x, i = .ldStVx x)

/-- Memory is written by `Fx33` and `Fx55` alone (20_memory.md R41, derived there), and then only at the addresses the instruction computes; Display by `00E0` and
`Dxyn` alone, the random source is drawn from by `Cxnn` alone, a report is made by an unrecognized word alone, the host's inputs and the slot count by no
instruction. -/
def Obligations.WritersOfMemoryDisplayAndReports : Prop :=
  ∀ (i : Instr) (s t : State), exec i s = .next t →
    (∀ a : Addr, t.readByte a ≠ s.readByte a → .byte a ∈ storedParts i s ∧ ((∃ x, i = .ldB x) ∨ ∃ x, i = .storeRegs x))
    ∧ (t.display ≠ s.display → i = .cls ∨ ∃ x y n, i = .drw x y n)
    ∧ (t.draws ≠ s.draws ∨ t.rnd ≠ s.rnd → ∃ x nn, i = .rnd x nn)
    ∧ (t.reports ≠ s.reports → ∃ w, i = .unrecognized w ∧ t.reports = s.reports ++ [w])
    ∧ t.keys = s.keys ∧ t.slot = s.slot ∧ agreeOn .host s t

/-- A general register is written only by an instruction that names it as its destination, or, for VF, by one of the seven flag writers; a flag writer leaves
VF 0 or 1 (10_state.md sections 1 and 3, R12; that the others leave VF alone is derived there). That a flag writer whose destination is VF
leaves the flag there is decision D5, and that `Fx1E` always writes VF is decision D6 (log entry 5). -/
def Obligations.WritersOfRegistersAndFlag : Prop :=
  ∀ (i : Instr) (s t : State), exec i s = .next t →
    (∀ r, t.getV r ≠ s.getV r →
      (∃ nn, i = .ldImm r nn ∨ i = .addImm r nn ∨ i = .rnd r nn)
      ∨ (∃ y, i = .ldReg r y ∨ i = .orReg r y ∨ i = .andReg r y ∨ i = .xorReg r y ∨ i = .addReg r y ∨ i = .subReg r y
          ∨ i = .shrReg r y ∨ i = .subnReg r y ∨ i = .shlReg r y)
      ∨ i = .ldVxDt r ∨ i = .ldVxK r ∨ (∃ x, r ≤ x ∧ i = .loadRegs x)
      ∨ (r = 0xF#4 ∧ ((∃ x y, i = .addReg x y ∨ i = .subReg x y ∨ i = .shrReg x y ∨ i = .subnReg x y ∨ i = .shlReg x y)
          ∨ (∃ x y n, i = .drw x y n) ∨ ∃ x, i = .addI x)))
    ∧ ((∃ x y, i = .addReg x y ∨ i = .subReg x y ∨ i = .shrReg x y ∨ i = .subnReg x y ∨ i = .shlReg x y)
        ∨ (∃ x y n, i = .drw x y n) ∨ (∃ x, i = .addI x) → t.getV 0xF#4 = 0x00#8 ∨ t.getV 0xF#4 = 0x01#8)

/-- PC moves from the advanced PC only by the instructions of the table under 10_state.md R16 (derived there). -/
def Obligations.WritersOfPc : Prop :=
  ∀ (i : Instr) (s t : State), exec i s = .next t → t.pc ≠ s.pc →
    i = .ret ∨ (∃ nnn, i = .jp nnn ∨ i = .call nnn ∨ i = .jpV0 nnn)
    ∨ (∃ x nn, i = .seImm x nn ∨ i = .sneImm x nn) ∨ (∃ x y, i = .seReg x y ∨ i = .sneReg x y)
    ∨ ∃ x, i = .skp x ∨ i = .sknp x ∨ i = .ldVxK x

/-! ## The open parameter and the host's moves -/

/-- SHR_FLAG_SRC is a parameter of the build: no step writes it, a reset included (00_scope.md R5, decision D7). That it stands in State is the model's own
form (log entry 6). -/
def Obligations.NoStepWritesTheFlagSource : Prop := ∀ s t : State, step s = .next t → t.shrFlagSrc = s.shrFlagSrc

/-- Within a tick the host has none of its moves but the reset, and from the first tick on it loads nothing; between ticks it writes the 16 key levels,
requests a tick or stops, and reads the display snapshot, each of which changes what it names alone (10_state.md section 9, R36; 40_cycle.md section 2, R86; decision D14, log entry 17). -/
def Obligations.HostMovesOnlyBetweenTicks : Prop :=
  ∀ (s : State) (keys : Keypad) (on : Bool) (bs : List Byte) (font : Vector Byte 80),
    (s.slot ≠ 0 → s.hostSetKeys keys = none ∧ s.hostRequestTicks on = none ∧ s.displaySnapshot = none)
    ∧ (s.slot ≠ 0 ∨ s.started = true → s.loadProgram bs = none ∧ s.loadFont font = none)
    ∧ (s.slot = 0 →
      (∃ t, s.hostSetKeys keys = some t ∧ t.keys = keys ∧ changesOnly [.keypad] s t)
      ∧ (∃ t, s.hostRequestTicks on = some t ∧ t.tickRequest = on ∧ t.resetRequest = s.resetRequest ∧ t.keyFrames = s.keyFrames
          ∧ t.frames = s.frames ∧ changesOnly [.host] s t)
      ∧ (∃ cells, s.displaySnapshot = some cells ∧ cells.length = 2048 ∧ ∀ k < 2048, cells[k]? = some (pixel s.display k)))
    ∧ s.hostAssertReset.resetRequest = true ∧ s.hostAssertReset.keyFrames = s.keyFrames ∧ s.hostAssertReset.frames = s.frames
    ∧ s.hostAssertReset.tickRequest = s.tickRequest ∧ changesOnly [.host] s s.hostAssertReset

/-- The host loads Memory before the first tick alone: after the first instruction step, however many steps later and across resets, no program and no font
can be loaded; a step that runs no instruction leaves the host's right to load as it was (10_state.md section 9, R36; 40_cycle.md section 4). That a
later reset does not give it back is the model's own choice (log entry 17). -/
def Obligations.MemoryIsLoadedBeforeTheFirstTickAlone : Prop :=
  (∀ (n : Nat) (s t : State), s.running ∨ s.started = true → Host.Core.run Sys2Proof.core (n + 1) s = .next t →
    t.started = true ∧ ∀ (bs : List Byte) (font : Vector Byte 80), t.loadProgram bs = none ∧ t.loadFont font = none)
  ∧ ∀ s t : State, ¬ s.running → step s = .next t → agreeOn .started s t ∧ ∀ a, agreeOn (.byte a) s t
end

