-- ==== Sys2Proof/Laws/Decode.lean ====
section
/-! SUPPORT. The fields of an encoded word and the bytes of a word, as numbers and as fields. -/

namespace Sys2Proof

/-- Concatenation as a number: the left part in the high bits. -/
theorem toNat_append_eq {m n : Nat} (a : BitVec m) (b : BitVec n) : (a ++ b).toNat = a.toNat * 2 ^ n + b.toNat := by
  rw [BitVec.toNat_append, ← Nat.shiftLeft_add_eq_or_of_lt b.isLt, Nat.shiftLeft_eq]

/-! ## Each field of a word as a number (R61) -/

theorem fieldOp_toNat (w : Word) : (fieldOp w).toNat = w.toNat / 4096 % 16 := by
  simp [fieldOp, BitVec.extractLsb'_toNat, Nat.shiftRight_eq_div_pow]

theorem fieldX_toNat (w : Word) : (fieldX w).toNat = w.toNat / 256 % 16 := by
  simp [fieldX, BitVec.extractLsb'_toNat, Nat.shiftRight_eq_div_pow]

theorem fieldY_toNat (w : Word) : (fieldY w).toNat = w.toNat / 16 % 16 := by
  simp [fieldY, BitVec.extractLsb'_toNat, Nat.shiftRight_eq_div_pow]

theorem fieldN_toNat (w : Word) : (fieldN w).toNat = w.toNat % 16 := by
  simp [fieldN, BitVec.extractLsb'_toNat]

theorem fieldNn_toNat (w : Word) : (fieldNn w).toNat = w.toNat % 256 := by
  simp [fieldNn, BitVec.extractLsb'_toNat]

theorem fieldNnn_toNat (w : Word) : (fieldNnn w).toNat = w.toNat % 4096 := by
  simp [fieldNnn, BitVec.extractLsb'_toNat]

/-! ## Each format as a number (R62) -/

theorem formatA_toNat (op : BitVec 4) (nnn : Addr) : (formatA op nnn).toNat = op.toNat * 4096 + nnn.toNat := by
  simp only [formatA, toNat_append_eq, Nat.reducePow]

theorem formatXI_toNat (op : BitVec 4) (x : RegIdx) (nn : Byte) :
    (formatXI op x nn).toNat = op.toNat * 4096 + x.toNat * 256 + nn.toNat := by
  simp only [formatXI, toNat_append_eq]; omega

theorem formatXY_toNat (op : BitVec 4) (x y : RegIdx) (n : BitVec 4) :
    (formatXY op x y n).toNat = op.toNat * 4096 + x.toNat * 256 + y.toNat * 16 + n.toNat := by
  simp only [formatXY, toNat_append_eq]; omega

theorem formatX_toNat (op : BitVec 4) (x : RegIdx) (sub : Byte) :
    (formatX op x sub).toNat = op.toNat * 4096 + x.toNat * 256 + sub.toNat := by
  simp only [formatX, toNat_append_eq]; omega

/-! ## The fields of each format -/

section
variable (op : BitVec 4) (x y : RegIdx) (n : BitVec 4) (nn : Byte) (nnn : Addr)

@[simp] theorem fieldOp_formatA : fieldOp (formatA op nnn) = op :=
  BitVec.eq_of_toNat_eq (by rw [fieldOp_toNat, formatA_toNat]; omega)
@[simp] theorem fieldNnn_formatA : fieldNnn (formatA op nnn) = nnn :=
  BitVec.eq_of_toNat_eq (by rw [fieldNnn_toNat, formatA_toNat]; omega)

@[simp] theorem fieldOp_formatXI : fieldOp (formatXI op x nn) = op :=
  BitVec.eq_of_toNat_eq (by rw [fieldOp_toNat, formatXI_toNat]; omega)
@[simp] theorem fieldX_formatXI : fieldX (formatXI op x nn) = x :=
  BitVec.eq_of_toNat_eq (by rw [fieldX_toNat, formatXI_toNat]; omega)
@[simp] theorem fieldNn_formatXI : fieldNn (formatXI op x nn) = nn :=
  BitVec.eq_of_toNat_eq (by rw [fieldNn_toNat, formatXI_toNat]; omega)

@[simp] theorem fieldOp_formatXY : fieldOp (formatXY op x y n) = op :=
  BitVec.eq_of_toNat_eq (by rw [fieldOp_toNat, formatXY_toNat]; omega)
@[simp] theorem fieldX_formatXY : fieldX (formatXY op x y n) = x :=
  BitVec.eq_of_toNat_eq (by rw [fieldX_toNat, formatXY_toNat]; omega)
@[simp] theorem fieldY_formatXY : fieldY (formatXY op x y n) = y :=
  BitVec.eq_of_toNat_eq (by rw [fieldY_toNat, formatXY_toNat]; omega)
@[simp] theorem fieldN_formatXY : fieldN (formatXY op x y n) = n :=
  BitVec.eq_of_toNat_eq (by rw [fieldN_toNat, formatXY_toNat]; omega)

@[simp] theorem fieldOp_formatX : fieldOp (formatX op x nn) = op :=
  BitVec.eq_of_toNat_eq (by rw [fieldOp_toNat, formatX_toNat]; omega)
@[simp] theorem fieldX_formatX : fieldX (formatX op x nn) = x :=
  BitVec.eq_of_toNat_eq (by rw [fieldX_toNat, formatX_toNat]; omega)
@[simp] theorem fieldNn_formatX : fieldNn (formatX op x nn) = nn :=
  BitVec.eq_of_toNat_eq (by rw [fieldNn_toNat, formatX_toNat]; omega)

end

/-! ## The masks of the opcode map (R66), each in terms of the fields it keeps -/

theorem and_F000 (w : Word) : w &&& 0xF000#16 = formatA (fieldOp w) 0x000#12 := by
  refine BitVec.eq_of_getLsbD_eq fun i hi => ?_
  simp only [formatA, fieldOp, BitVec.getLsbD_and, BitVec.getLsbD_append, BitVec.getLsbD_extractLsb']
  interval_cases i <;> simp

theorem and_F00F (w : Word) : w &&& 0xF00F#16 = formatXY (fieldOp w) 0x0#4 0x0#4 (fieldN w) := by
  refine BitVec.eq_of_getLsbD_eq fun i hi => ?_
  simp only [formatXY, fieldOp, fieldN, BitVec.getLsbD_and, BitVec.getLsbD_append, BitVec.getLsbD_extractLsb']
  interval_cases i <;> simp

theorem and_F0FF (w : Word) : w &&& 0xF0FF#16 = formatX (fieldOp w) 0x0#4 (fieldNn w) := by
  refine BitVec.eq_of_getLsbD_eq fun i hi => ?_
  simp only [formatX, fieldOp, fieldNn, BitVec.getLsbD_and, BitVec.getLsbD_append, BitVec.getLsbD_extractLsb']
  interval_cases i <;> simp

/-! ## The bytes of a word (R42) -/

/-- A word laid out in its two bytes and read back is the word. -/
@[simp] theorem wordOfBytes_high_low (w : Word) : wordOfBytes (highByte w) (lowByte w) = w := by
  apply BitVec.eq_of_toNat_eq
  have := w.isLt
  simp only [wordOfBytes, toNat_append_eq, highByte, lowByte, BitVec.extractLsb'_toNat, Nat.shiftRight_eq_div_pow]
  omega

/-- The high byte of a word read from two bytes. -/
@[simp] theorem highByte_wordOfBytes (h l : Byte) : highByte (wordOfBytes h l) = h := by
  apply BitVec.eq_of_toNat_eq
  simp only [wordOfBytes, highByte, BitVec.extractLsb'_toNat, Nat.shiftRight_eq_div_pow, toNat_append_eq]
  omega

/-- The low byte of a word read from two bytes. -/
@[simp] theorem lowByte_wordOfBytes (h l : Byte) : lowByte (wordOfBytes h l) = l := by
  apply BitVec.eq_of_toNat_eq
  simp only [wordOfBytes, lowByte, BitVec.extractLsb'_toNat, Nat.shiftRight_eq_div_pow, toNat_append_eq]
  omega

end Sys2Proof
end

