-- ==== Sys2Proof/Laws/Memory.lean ====
section
/-! SUPPORT. The laws of Memory: a read after a write, at every address and for every listing, and that every memory operation
keeps the canonical form. -/

namespace Sys2Proof.Machine

/-! ## Read after write -/

theorem Memory.read_erase (m : Memory) (a j : Nat) :
    (Memory.erase m a).read j = if j = a then Memory.unlisted else m.read j := by
  induction m with
  | nil => simp [Memory.erase, Memory.read]
  | cons c m ih =>
    obtain ⟨k, b⟩ := c
    simp only [Memory.erase, Memory.read]
    split
    · next h => subst h; rw [ih]; split <;> simp_all [eq_comm]
    · next h => simp only [Memory.read, ih]; split <;> simp_all

theorem Memory.read_insert (m : Memory) (a : Nat) (b : Byte) (j : Nat) :
    (∀ c ∈ m, c.1 ≠ a) → (Memory.insert m a b).read j = if j = a then b else m.read j := by
  induction m with
  | nil => intro _; simp [Memory.insert, Memory.read, eq_comm]
  | cons c m ih =>
    obtain ⟨k, d⟩ := c
    intro h
    have hk : k ≠ a := h (k, d) (by simp)
    have hr := ih (fun c hc => h c (by simp [hc]))
    simp only [Memory.insert]
    split
    · simp only [Memory.read, hr]; split <;> simp_all
    · simp only [Memory.read, eq_comm]

theorem Memory.erase_absent (m : Memory) (a : Nat) : ∀ c ∈ Memory.erase m a, c.1 ≠ a := by
  induction m with
  | nil => simp [Memory.erase]
  | cons c m ih =>
    obtain ⟨k, b⟩ := c
    simp only [Memory.erase]
    split
    · exact ih
    · next h => intro c hc; simp only [List.mem_cons] at hc; rcases hc with rfl | hc
                · exact h
                · exact ih c hc

/-- A read returns the byte last written there, and a write changes that one byte (R31), whatever the listing. -/
@[simp] theorem Memory.read_write (m : Memory) (a : Nat) (b : Byte) (j : Nat) :
    (m.write a b).read j = if j = a then b else m.read j := by
  unfold Memory.write
  split
  · next h => rw [Memory.read_erase, h]
  · rw [Memory.read_insert _ _ _ _ (Memory.erase_absent m a), Memory.read_erase]
    split <;> simp_all

/-! ## The canonical form -/

theorem Memory.wfFrom_mono {low low' : Nat} {m : Memory} (h : Memory.wfFrom low m = true) (hl : low' ≤ low) :
    Memory.wfFrom low' m = true := by
  cases m with
  | nil => rfl
  | cons c m =>
    obtain ⟨k, b⟩ := c
    simp only [Memory.wfFrom, Bool.and_eq_true, decide_eq_true_eq] at h ⊢
    exact ⟨⟨⟨by omega, h.1.1.2⟩, h.1.2⟩, h.2⟩

theorem Memory.wfFrom_erase {m : Memory} (a : Nat) : ∀ {low : Nat}, Memory.wfFrom low m = true →
    Memory.wfFrom low (Memory.erase m a) = true := by
  induction m with
  | nil => intro low _; rfl
  | cons c m ih =>
    obtain ⟨k, b⟩ := c
    intro low h
    simp only [Memory.wfFrom, Bool.and_eq_true, decide_eq_true_eq] at h
    simp only [Memory.erase]
    split
    · exact Memory.wfFrom_mono (ih h.2) (by omega)
    · simp only [Memory.wfFrom, Bool.and_eq_true, decide_eq_true_eq]
      exact ⟨h.1, ih h.2⟩

theorem Memory.wfFrom_insert {m : Memory} {a : Nat} {b : Byte} (ha : a < Config.memBytes) (hb : b ≠ Memory.unlisted) :
    ∀ {low : Nat}, low ≤ a → (∀ c ∈ m, c.1 ≠ a) → Memory.wfFrom low m = true →
      Memory.wfFrom low (Memory.insert m a b) = true := by
  induction m with
  | nil =>
    intro low hl _ _
    simp [Memory.insert, Memory.wfFrom, hl, ha, hb]
  | cons c m ih =>
    obtain ⟨k, d⟩ := c
    intro low hl hne h
    have hk : k ≠ a := hne (k, d) (by simp)
    simp only [Memory.wfFrom, Bool.and_eq_true, decide_eq_true_eq] at h
    simp only [Memory.insert]
    split
    · next hlt =>
      simp only [Memory.wfFrom, Bool.and_eq_true, decide_eq_true_eq]
      exact ⟨h.1, ih (by omega) (fun c hc => hne c (by simp [hc])) h.2⟩
    · simp only [Memory.wfFrom, Bool.and_eq_true, decide_eq_true_eq, bne_iff_ne, ne_eq]
      exact ⟨⟨⟨hl, ha⟩, hb⟩, ⟨⟨by omega, h.1.1.2⟩, by simpa using h.1.2⟩, h.2⟩

/-- Every write inside Memory keeps the canonical form. -/
theorem Memory.wf_write {m : Memory} {a : Nat} (b : Byte) (ha : a < Config.memBytes) (h : m.wf = true) :
    (m.write a b).wf = true := by
  unfold Memory.write
  split
  · exact Memory.wfFrom_erase a h
  · next hb => exact Memory.wfFrom_insert ha hb (Nat.zero_le a) (Memory.erase_absent m a) (Memory.wfFrom_erase a h)

/-- Reset's memory has the canonical form. -/
theorem Memory.wf_reset : State.reset.mem.wf = true := rfl

/-! ## The same over the state -/

theorem Addr.toNat_lt (a : Addr) : a.toNat < Config.memBytes := a.isLt

@[simp] theorem State.readByte_writeByte (s : State) (a : Addr) (b : Byte) (j : Addr) :
    (s.writeByte a b).readByte j = if j = a then b else s.readByte j := by
  simp [State.readByte, State.writeByte, BitVec.toNat_inj]

theorem State.wf_writeByte {s : State} (a : Addr) (b : Byte) (h : s.mem.wf = true) : (s.writeByte a b).mem.wf = true :=
  Memory.wf_write b (Addr.toNat_lt a) h

theorem State.wf_storeWord {s : State} (a : Addr) (w : Word) (h : s.mem.wf = true) : (s.storeWord a w).mem.wf = true :=
  State.wf_writeByte _ _ (State.wf_writeByte _ _ h)

theorem State.wf_storeAtI {s : State} (cells : List (Nat × Byte)) (h : s.mem.wf = true) :
    (s.storeAtI cells).mem.wf = true := by
  unfold State.storeAtI
  suffices ∀ t : State, t.mem.wf = true →
      (cells.foldl (fun t c => t.writeByte (s.dataAddr c.1) c.2) t).mem.wf = true from this s h
  induction cells with
  | nil => intro t ht; exact ht
  | cons c cells ih => intro t ht; exact ih _ (State.wf_writeByte _ _ ht)

theorem State.wf_loadBytes (bs : List Byte) : ∀ {s : State} (a : Addr), s.mem.wf = true → (s.loadBytes a bs).mem.wf = true := by
  induction bs with
  | nil => intro s a h; exact h
  | cons b bs ih => intro s a h; exact ih _ (State.wf_writeByte a b h)

end Sys2Proof.Machine
end

