-- ==== Sys2Proof/Laws/State.lean ====
section
/-! SUPPORT. One lemma per field per update of the state, each true by unfolding the update once, so that no later proof unfolds a
record update. -/

namespace Sys2Proof.Machine

section
variable (s : State)

/-! ### `State.setV` -/

@[simp] theorem State.setV_v (r : RegIdx) (b : Byte) : (s.setV r b).v = s.v.set r.toNat b (r.isLt) := rfl
@[simp] theorem State.setV_i (r : RegIdx) (b : Byte) : (s.setV r b).i = s.i := rfl
@[simp] theorem State.setV_pc (r : RegIdx) (b : Byte) : (s.setV r b).pc = s.pc := rfl
@[simp] theorem State.setV_sp (r : RegIdx) (b : Byte) : (s.setV r b).sp = s.sp := rfl
@[simp] theorem State.setV_stack (r : RegIdx) (b : Byte) : (s.setV r b).stack = s.stack := rfl
@[simp] theorem State.setV_dt (r : RegIdx) (b : Byte) : (s.setV r b).dt = s.dt := rfl
@[simp] theorem State.setV_st (r : RegIdx) (b : Byte) : (s.setV r b).st = s.st := rfl
@[simp] theorem State.setV_slot (r : RegIdx) (b : Byte) : (s.setV r b).slot = s.slot := rfl
@[simp] theorem State.setV_mem (r : RegIdx) (b : Byte) : (s.setV r b).mem = s.mem := rfl
@[simp] theorem State.setV_display (r : RegIdx) (b : Byte) : (s.setV r b).display = s.display := rfl
@[simp] theorem State.setV_keys (r : RegIdx) (b : Byte) : (s.setV r b).keys = s.keys := rfl
@[simp] theorem State.setV_rnd (r : RegIdx) (b : Byte) : (s.setV r b).rnd = s.rnd := rfl
@[simp] theorem State.setV_draws (r : RegIdx) (b : Byte) : (s.setV r b).draws = s.draws := rfl
@[simp] theorem State.setV_keyFrames (r : RegIdx) (b : Byte) : (s.setV r b).keyFrames = s.keyFrames := rfl
@[simp] theorem State.setV_frames (r : RegIdx) (b : Byte) : (s.setV r b).frames = s.frames := rfl
@[simp] theorem State.setV_tickRequest (r : RegIdx) (b : Byte) : (s.setV r b).tickRequest = s.tickRequest := rfl
@[simp] theorem State.setV_resetRequest (r : RegIdx) (b : Byte) : (s.setV r b).resetRequest = s.resetRequest := rfl
@[simp] theorem State.setV_reports (r : RegIdx) (b : Byte) : (s.setV r b).reports = s.reports := rfl
@[simp] theorem State.setV_shrFlagSrc (r : RegIdx) (b : Byte) : (s.setV r b).shrFlagSrc = s.shrFlagSrc := rfl
@[simp] theorem State.setV_started (r : RegIdx) (b : Byte) : (s.setV r b).started = s.started := rfl

/-! ### `State.setI` -/

@[simp] theorem State.setI_v (a : Addr) : (s.setI a).v = s.v := rfl
@[simp] theorem State.setI_i (a : Addr) : (s.setI a).i = a := rfl
@[simp] theorem State.setI_pc (a : Addr) : (s.setI a).pc = s.pc := rfl
@[simp] theorem State.setI_sp (a : Addr) : (s.setI a).sp = s.sp := rfl
@[simp] theorem State.setI_stack (a : Addr) : (s.setI a).stack = s.stack := rfl
@[simp] theorem State.setI_dt (a : Addr) : (s.setI a).dt = s.dt := rfl
@[simp] theorem State.setI_st (a : Addr) : (s.setI a).st = s.st := rfl
@[simp] theorem State.setI_slot (a : Addr) : (s.setI a).slot = s.slot := rfl
@[simp] theorem State.setI_mem (a : Addr) : (s.setI a).mem = s.mem := rfl
@[simp] theorem State.setI_display (a : Addr) : (s.setI a).display = s.display := rfl
@[simp] theorem State.setI_keys (a : Addr) : (s.setI a).keys = s.keys := rfl
@[simp] theorem State.setI_rnd (a : Addr) : (s.setI a).rnd = s.rnd := rfl
@[simp] theorem State.setI_draws (a : Addr) : (s.setI a).draws = s.draws := rfl
@[simp] theorem State.setI_keyFrames (a : Addr) : (s.setI a).keyFrames = s.keyFrames := rfl
@[simp] theorem State.setI_frames (a : Addr) : (s.setI a).frames = s.frames := rfl
@[simp] theorem State.setI_tickRequest (a : Addr) : (s.setI a).tickRequest = s.tickRequest := rfl
@[simp] theorem State.setI_resetRequest (a : Addr) : (s.setI a).resetRequest = s.resetRequest := rfl
@[simp] theorem State.setI_reports (a : Addr) : (s.setI a).reports = s.reports := rfl
@[simp] theorem State.setI_shrFlagSrc (a : Addr) : (s.setI a).shrFlagSrc = s.shrFlagSrc := rfl
@[simp] theorem State.setI_started (a : Addr) : (s.setI a).started = s.started := rfl

/-! ### `State.setPc` -/

@[simp] theorem State.setPc_v (a : Addr) : (s.setPc a).v = s.v := rfl
@[simp] theorem State.setPc_i (a : Addr) : (s.setPc a).i = s.i := rfl
@[simp] theorem State.setPc_pc (a : Addr) : (s.setPc a).pc = a := rfl
@[simp] theorem State.setPc_sp (a : Addr) : (s.setPc a).sp = s.sp := rfl
@[simp] theorem State.setPc_stack (a : Addr) : (s.setPc a).stack = s.stack := rfl
@[simp] theorem State.setPc_dt (a : Addr) : (s.setPc a).dt = s.dt := rfl
@[simp] theorem State.setPc_st (a : Addr) : (s.setPc a).st = s.st := rfl
@[simp] theorem State.setPc_slot (a : Addr) : (s.setPc a).slot = s.slot := rfl
@[simp] theorem State.setPc_mem (a : Addr) : (s.setPc a).mem = s.mem := rfl
@[simp] theorem State.setPc_display (a : Addr) : (s.setPc a).display = s.display := rfl
@[simp] theorem State.setPc_keys (a : Addr) : (s.setPc a).keys = s.keys := rfl
@[simp] theorem State.setPc_rnd (a : Addr) : (s.setPc a).rnd = s.rnd := rfl
@[simp] theorem State.setPc_draws (a : Addr) : (s.setPc a).draws = s.draws := rfl
@[simp] theorem State.setPc_keyFrames (a : Addr) : (s.setPc a).keyFrames = s.keyFrames := rfl
@[simp] theorem State.setPc_frames (a : Addr) : (s.setPc a).frames = s.frames := rfl
@[simp] theorem State.setPc_tickRequest (a : Addr) : (s.setPc a).tickRequest = s.tickRequest := rfl
@[simp] theorem State.setPc_resetRequest (a : Addr) : (s.setPc a).resetRequest = s.resetRequest := rfl
@[simp] theorem State.setPc_reports (a : Addr) : (s.setPc a).reports = s.reports := rfl
@[simp] theorem State.setPc_shrFlagSrc (a : Addr) : (s.setPc a).shrFlagSrc = s.shrFlagSrc := rfl
@[simp] theorem State.setPc_started (a : Addr) : (s.setPc a).started = s.started := rfl

/-! ### `State.setDt` -/

@[simp] theorem State.setDt_v (b : Byte) : (s.setDt b).v = s.v := rfl
@[simp] theorem State.setDt_i (b : Byte) : (s.setDt b).i = s.i := rfl
@[simp] theorem State.setDt_pc (b : Byte) : (s.setDt b).pc = s.pc := rfl
@[simp] theorem State.setDt_sp (b : Byte) : (s.setDt b).sp = s.sp := rfl
@[simp] theorem State.setDt_stack (b : Byte) : (s.setDt b).stack = s.stack := rfl
@[simp] theorem State.setDt_dt (b : Byte) : (s.setDt b).dt = b := rfl
@[simp] theorem State.setDt_st (b : Byte) : (s.setDt b).st = s.st := rfl
@[simp] theorem State.setDt_slot (b : Byte) : (s.setDt b).slot = s.slot := rfl
@[simp] theorem State.setDt_mem (b : Byte) : (s.setDt b).mem = s.mem := rfl
@[simp] theorem State.setDt_display (b : Byte) : (s.setDt b).display = s.display := rfl
@[simp] theorem State.setDt_keys (b : Byte) : (s.setDt b).keys = s.keys := rfl
@[simp] theorem State.setDt_rnd (b : Byte) : (s.setDt b).rnd = s.rnd := rfl
@[simp] theorem State.setDt_draws (b : Byte) : (s.setDt b).draws = s.draws := rfl
@[simp] theorem State.setDt_keyFrames (b : Byte) : (s.setDt b).keyFrames = s.keyFrames := rfl
@[simp] theorem State.setDt_frames (b : Byte) : (s.setDt b).frames = s.frames := rfl
@[simp] theorem State.setDt_tickRequest (b : Byte) : (s.setDt b).tickRequest = s.tickRequest := rfl
@[simp] theorem State.setDt_resetRequest (b : Byte) : (s.setDt b).resetRequest = s.resetRequest := rfl
@[simp] theorem State.setDt_reports (b : Byte) : (s.setDt b).reports = s.reports := rfl
@[simp] theorem State.setDt_shrFlagSrc (b : Byte) : (s.setDt b).shrFlagSrc = s.shrFlagSrc := rfl
@[simp] theorem State.setDt_started (b : Byte) : (s.setDt b).started = s.started := rfl

/-! ### `State.setSt` -/

@[simp] theorem State.setSt_v (b : Byte) : (s.setSt b).v = s.v := rfl
@[simp] theorem State.setSt_i (b : Byte) : (s.setSt b).i = s.i := rfl
@[simp] theorem State.setSt_pc (b : Byte) : (s.setSt b).pc = s.pc := rfl
@[simp] theorem State.setSt_sp (b : Byte) : (s.setSt b).sp = s.sp := rfl
@[simp] theorem State.setSt_stack (b : Byte) : (s.setSt b).stack = s.stack := rfl
@[simp] theorem State.setSt_dt (b : Byte) : (s.setSt b).dt = s.dt := rfl
@[simp] theorem State.setSt_st (b : Byte) : (s.setSt b).st = b := rfl
@[simp] theorem State.setSt_slot (b : Byte) : (s.setSt b).slot = s.slot := rfl
@[simp] theorem State.setSt_mem (b : Byte) : (s.setSt b).mem = s.mem := rfl
@[simp] theorem State.setSt_display (b : Byte) : (s.setSt b).display = s.display := rfl
@[simp] theorem State.setSt_keys (b : Byte) : (s.setSt b).keys = s.keys := rfl
@[simp] theorem State.setSt_rnd (b : Byte) : (s.setSt b).rnd = s.rnd := rfl
@[simp] theorem State.setSt_draws (b : Byte) : (s.setSt b).draws = s.draws := rfl
@[simp] theorem State.setSt_keyFrames (b : Byte) : (s.setSt b).keyFrames = s.keyFrames := rfl
@[simp] theorem State.setSt_frames (b : Byte) : (s.setSt b).frames = s.frames := rfl
@[simp] theorem State.setSt_tickRequest (b : Byte) : (s.setSt b).tickRequest = s.tickRequest := rfl
@[simp] theorem State.setSt_resetRequest (b : Byte) : (s.setSt b).resetRequest = s.resetRequest := rfl
@[simp] theorem State.setSt_reports (b : Byte) : (s.setSt b).reports = s.reports := rfl
@[simp] theorem State.setSt_shrFlagSrc (b : Byte) : (s.setSt b).shrFlagSrc = s.shrFlagSrc := rfl
@[simp] theorem State.setSt_started (b : Byte) : (s.setSt b).started = s.started := rfl

/-! ### `State.setDisplay` -/

@[simp] theorem State.setDisplay_v (d : Display) : (s.setDisplay d).v = s.v := rfl
@[simp] theorem State.setDisplay_i (d : Display) : (s.setDisplay d).i = s.i := rfl
@[simp] theorem State.setDisplay_pc (d : Display) : (s.setDisplay d).pc = s.pc := rfl
@[simp] theorem State.setDisplay_sp (d : Display) : (s.setDisplay d).sp = s.sp := rfl
@[simp] theorem State.setDisplay_stack (d : Display) : (s.setDisplay d).stack = s.stack := rfl
@[simp] theorem State.setDisplay_dt (d : Display) : (s.setDisplay d).dt = s.dt := rfl
@[simp] theorem State.setDisplay_st (d : Display) : (s.setDisplay d).st = s.st := rfl
@[simp] theorem State.setDisplay_slot (d : Display) : (s.setDisplay d).slot = s.slot := rfl
@[simp] theorem State.setDisplay_mem (d : Display) : (s.setDisplay d).mem = s.mem := rfl
@[simp] theorem State.setDisplay_display (d : Display) : (s.setDisplay d).display = d := rfl
@[simp] theorem State.setDisplay_keys (d : Display) : (s.setDisplay d).keys = s.keys := rfl
@[simp] theorem State.setDisplay_rnd (d : Display) : (s.setDisplay d).rnd = s.rnd := rfl
@[simp] theorem State.setDisplay_draws (d : Display) : (s.setDisplay d).draws = s.draws := rfl
@[simp] theorem State.setDisplay_keyFrames (d : Display) : (s.setDisplay d).keyFrames = s.keyFrames := rfl
@[simp] theorem State.setDisplay_frames (d : Display) : (s.setDisplay d).frames = s.frames := rfl
@[simp] theorem State.setDisplay_tickRequest (d : Display) : (s.setDisplay d).tickRequest = s.tickRequest := rfl
@[simp] theorem State.setDisplay_resetRequest (d : Display) : (s.setDisplay d).resetRequest = s.resetRequest := rfl
@[simp] theorem State.setDisplay_reports (d : Display) : (s.setDisplay d).reports = s.reports := rfl
@[simp] theorem State.setDisplay_shrFlagSrc (d : Display) : (s.setDisplay d).shrFlagSrc = s.shrFlagSrc := rfl
@[simp] theorem State.setDisplay_started (d : Display) : (s.setDisplay d).started = s.started := rfl

/-! ### `State.setSlot` -/

@[simp] theorem State.setSlot_v (n : Nat) : (s.setSlot n).v = s.v := rfl
@[simp] theorem State.setSlot_i (n : Nat) : (s.setSlot n).i = s.i := rfl
@[simp] theorem State.setSlot_pc (n : Nat) : (s.setSlot n).pc = s.pc := rfl
@[simp] theorem State.setSlot_sp (n : Nat) : (s.setSlot n).sp = s.sp := rfl
@[simp] theorem State.setSlot_stack (n : Nat) : (s.setSlot n).stack = s.stack := rfl
@[simp] theorem State.setSlot_dt (n : Nat) : (s.setSlot n).dt = s.dt := rfl
@[simp] theorem State.setSlot_st (n : Nat) : (s.setSlot n).st = s.st := rfl
@[simp] theorem State.setSlot_slot (n : Nat) : (s.setSlot n).slot = n := rfl
@[simp] theorem State.setSlot_mem (n : Nat) : (s.setSlot n).mem = s.mem := rfl
@[simp] theorem State.setSlot_display (n : Nat) : (s.setSlot n).display = s.display := rfl
@[simp] theorem State.setSlot_keys (n : Nat) : (s.setSlot n).keys = s.keys := rfl
@[simp] theorem State.setSlot_rnd (n : Nat) : (s.setSlot n).rnd = s.rnd := rfl
@[simp] theorem State.setSlot_draws (n : Nat) : (s.setSlot n).draws = s.draws := rfl
@[simp] theorem State.setSlot_keyFrames (n : Nat) : (s.setSlot n).keyFrames = s.keyFrames := rfl
@[simp] theorem State.setSlot_frames (n : Nat) : (s.setSlot n).frames = s.frames := rfl
@[simp] theorem State.setSlot_tickRequest (n : Nat) : (s.setSlot n).tickRequest = s.tickRequest := rfl
@[simp] theorem State.setSlot_resetRequest (n : Nat) : (s.setSlot n).resetRequest = s.resetRequest := rfl
@[simp] theorem State.setSlot_reports (n : Nat) : (s.setSlot n).reports = s.reports := rfl
@[simp] theorem State.setSlot_shrFlagSrc (n : Nat) : (s.setSlot n).shrFlagSrc = s.shrFlagSrc := rfl
@[simp] theorem State.setSlot_started (n : Nat) : (s.setSlot n).started = s.started := rfl

/-! ### `State.writeByte` -/

@[simp] theorem State.writeByte_v (a : Addr) (b : Byte) : (s.writeByte a b).v = s.v := rfl
@[simp] theorem State.writeByte_i (a : Addr) (b : Byte) : (s.writeByte a b).i = s.i := rfl
@[simp] theorem State.writeByte_pc (a : Addr) (b : Byte) : (s.writeByte a b).pc = s.pc := rfl
@[simp] theorem State.writeByte_sp (a : Addr) (b : Byte) : (s.writeByte a b).sp = s.sp := rfl
@[simp] theorem State.writeByte_stack (a : Addr) (b : Byte) : (s.writeByte a b).stack = s.stack := rfl
@[simp] theorem State.writeByte_dt (a : Addr) (b : Byte) : (s.writeByte a b).dt = s.dt := rfl
@[simp] theorem State.writeByte_st (a : Addr) (b : Byte) : (s.writeByte a b).st = s.st := rfl
@[simp] theorem State.writeByte_slot (a : Addr) (b : Byte) : (s.writeByte a b).slot = s.slot := rfl
@[simp] theorem State.writeByte_mem (a : Addr) (b : Byte) : (s.writeByte a b).mem = s.mem.write a.toNat b := rfl
@[simp] theorem State.writeByte_display (a : Addr) (b : Byte) : (s.writeByte a b).display = s.display := rfl
@[simp] theorem State.writeByte_keys (a : Addr) (b : Byte) : (s.writeByte a b).keys = s.keys := rfl
@[simp] theorem State.writeByte_rnd (a : Addr) (b : Byte) : (s.writeByte a b).rnd = s.rnd := rfl
@[simp] theorem State.writeByte_draws (a : Addr) (b : Byte) : (s.writeByte a b).draws = s.draws := rfl
@[simp] theorem State.writeByte_keyFrames (a : Addr) (b : Byte) : (s.writeByte a b).keyFrames = s.keyFrames := rfl
@[simp] theorem State.writeByte_frames (a : Addr) (b : Byte) : (s.writeByte a b).frames = s.frames := rfl
@[simp] theorem State.writeByte_tickRequest (a : Addr) (b : Byte) : (s.writeByte a b).tickRequest = s.tickRequest := rfl
@[simp] theorem State.writeByte_resetRequest (a : Addr) (b : Byte) : (s.writeByte a b).resetRequest = s.resetRequest := rfl
@[simp] theorem State.writeByte_reports (a : Addr) (b : Byte) : (s.writeByte a b).reports = s.reports := rfl
@[simp] theorem State.writeByte_shrFlagSrc (a : Addr) (b : Byte) : (s.writeByte a b).shrFlagSrc = s.shrFlagSrc := rfl
@[simp] theorem State.writeByte_started (a : Addr) (b : Byte) : (s.writeByte a b).started = s.started := rfl

/-! ### `State.pushPc` -/

@[simp] theorem State.pushPc_v : (s.pushPc).v = s.v := rfl
@[simp] theorem State.pushPc_i : (s.pushPc).i = s.i := rfl
@[simp] theorem State.pushPc_pc : (s.pushPc).pc = s.pc := rfl
@[simp] theorem State.pushPc_sp : (s.pushPc).sp = s.sp + 0x1#4 := rfl
@[simp] theorem State.pushPc_stack : (s.pushPc).stack = s.stack.set s.sp.toNat s.pc (s.sp.isLt) := rfl
@[simp] theorem State.pushPc_dt : (s.pushPc).dt = s.dt := rfl
@[simp] theorem State.pushPc_st : (s.pushPc).st = s.st := rfl
@[simp] theorem State.pushPc_slot : (s.pushPc).slot = s.slot := rfl
@[simp] theorem State.pushPc_mem : (s.pushPc).mem = s.mem := rfl
@[simp] theorem State.pushPc_display : (s.pushPc).display = s.display := rfl
@[simp] theorem State.pushPc_keys : (s.pushPc).keys = s.keys := rfl
@[simp] theorem State.pushPc_rnd : (s.pushPc).rnd = s.rnd := rfl
@[simp] theorem State.pushPc_draws : (s.pushPc).draws = s.draws := rfl
@[simp] theorem State.pushPc_keyFrames : (s.pushPc).keyFrames = s.keyFrames := rfl
@[simp] theorem State.pushPc_frames : (s.pushPc).frames = s.frames := rfl
@[simp] theorem State.pushPc_tickRequest : (s.pushPc).tickRequest = s.tickRequest := rfl
@[simp] theorem State.pushPc_resetRequest : (s.pushPc).resetRequest = s.resetRequest := rfl
@[simp] theorem State.pushPc_reports : (s.pushPc).reports = s.reports := rfl
@[simp] theorem State.pushPc_shrFlagSrc : (s.pushPc).shrFlagSrc = s.shrFlagSrc := rfl
@[simp] theorem State.pushPc_started : (s.pushPc).started = s.started := rfl

/-! ### `State.popPc` -/

@[simp] theorem State.popPc_v : (s.popPc).v = s.v := rfl
@[simp] theorem State.popPc_i : (s.popPc).i = s.i := rfl
@[simp] theorem State.popPc_pc : (s.popPc).pc = s.stack[(s.sp - 0x1#4).toNat]'((s.sp - 0x1#4).isLt) := rfl
@[simp] theorem State.popPc_sp : (s.popPc).sp = s.sp - 0x1#4 := rfl
@[simp] theorem State.popPc_stack : (s.popPc).stack = s.stack := rfl
@[simp] theorem State.popPc_dt : (s.popPc).dt = s.dt := rfl
@[simp] theorem State.popPc_st : (s.popPc).st = s.st := rfl
@[simp] theorem State.popPc_slot : (s.popPc).slot = s.slot := rfl
@[simp] theorem State.popPc_mem : (s.popPc).mem = s.mem := rfl
@[simp] theorem State.popPc_display : (s.popPc).display = s.display := rfl
@[simp] theorem State.popPc_keys : (s.popPc).keys = s.keys := rfl
@[simp] theorem State.popPc_rnd : (s.popPc).rnd = s.rnd := rfl
@[simp] theorem State.popPc_draws : (s.popPc).draws = s.draws := rfl
@[simp] theorem State.popPc_keyFrames : (s.popPc).keyFrames = s.keyFrames := rfl
@[simp] theorem State.popPc_frames : (s.popPc).frames = s.frames := rfl
@[simp] theorem State.popPc_tickRequest : (s.popPc).tickRequest = s.tickRequest := rfl
@[simp] theorem State.popPc_resetRequest : (s.popPc).resetRequest = s.resetRequest := rfl
@[simp] theorem State.popPc_reports : (s.popPc).reports = s.reports := rfl
@[simp] theorem State.popPc_shrFlagSrc : (s.popPc).shrFlagSrc = s.shrFlagSrc := rfl
@[simp] theorem State.popPc_started : (s.popPc).started = s.started := rfl

/-! ### `State.afterDraw` -/

@[simp] theorem State.afterDraw_v : (s.afterDraw).v = s.v := rfl
@[simp] theorem State.afterDraw_i : (s.afterDraw).i = s.i := rfl
@[simp] theorem State.afterDraw_pc : (s.afterDraw).pc = s.pc := rfl
@[simp] theorem State.afterDraw_sp : (s.afterDraw).sp = s.sp := rfl
@[simp] theorem State.afterDraw_stack : (s.afterDraw).stack = s.stack := rfl
@[simp] theorem State.afterDraw_dt : (s.afterDraw).dt = s.dt := rfl
@[simp] theorem State.afterDraw_st : (s.afterDraw).st = s.st := rfl
@[simp] theorem State.afterDraw_slot : (s.afterDraw).slot = s.slot := rfl
@[simp] theorem State.afterDraw_mem : (s.afterDraw).mem = s.mem := rfl
@[simp] theorem State.afterDraw_display : (s.afterDraw).display = s.display := rfl
@[simp] theorem State.afterDraw_keys : (s.afterDraw).keys = s.keys := rfl
@[simp] theorem State.afterDraw_rnd : (s.afterDraw).rnd = s.rnd.tail := rfl
@[simp] theorem State.afterDraw_draws : (s.afterDraw).draws = s.draws + 1 := rfl
@[simp] theorem State.afterDraw_keyFrames : (s.afterDraw).keyFrames = s.keyFrames := rfl
@[simp] theorem State.afterDraw_frames : (s.afterDraw).frames = s.frames := rfl
@[simp] theorem State.afterDraw_tickRequest : (s.afterDraw).tickRequest = s.tickRequest := rfl
@[simp] theorem State.afterDraw_resetRequest : (s.afterDraw).resetRequest = s.resetRequest := rfl
@[simp] theorem State.afterDraw_reports : (s.afterDraw).reports = s.reports := rfl
@[simp] theorem State.afterDraw_shrFlagSrc : (s.afterDraw).shrFlagSrc = s.shrFlagSrc := rfl
@[simp] theorem State.afterDraw_started : (s.afterDraw).started = s.started := rfl

/-! ### `State.report` -/

@[simp] theorem State.report_v (w : Word) : (s.report w).v = s.v := rfl
@[simp] theorem State.report_i (w : Word) : (s.report w).i = s.i := rfl
@[simp] theorem State.report_pc (w : Word) : (s.report w).pc = s.pc := rfl
@[simp] theorem State.report_sp (w : Word) : (s.report w).sp = s.sp := rfl
@[simp] theorem State.report_stack (w : Word) : (s.report w).stack = s.stack := rfl
@[simp] theorem State.report_dt (w : Word) : (s.report w).dt = s.dt := rfl
@[simp] theorem State.report_st (w : Word) : (s.report w).st = s.st := rfl
@[simp] theorem State.report_slot (w : Word) : (s.report w).slot = s.slot := rfl
@[simp] theorem State.report_mem (w : Word) : (s.report w).mem = s.mem := rfl
@[simp] theorem State.report_display (w : Word) : (s.report w).display = s.display := rfl
@[simp] theorem State.report_keys (w : Word) : (s.report w).keys = s.keys := rfl
@[simp] theorem State.report_rnd (w : Word) : (s.report w).rnd = s.rnd := rfl
@[simp] theorem State.report_draws (w : Word) : (s.report w).draws = s.draws := rfl
@[simp] theorem State.report_keyFrames (w : Word) : (s.report w).keyFrames = s.keyFrames := rfl
@[simp] theorem State.report_frames (w : Word) : (s.report w).frames = s.frames := rfl
@[simp] theorem State.report_tickRequest (w : Word) : (s.report w).tickRequest = s.tickRequest := rfl
@[simp] theorem State.report_resetRequest (w : Word) : (s.report w).resetRequest = s.resetRequest := rfl
@[simp] theorem State.report_reports (w : Word) : (s.report w).reports = s.reports ++ [w] := rfl
@[simp] theorem State.report_shrFlagSrc (w : Word) : (s.report w).shrFlagSrc = s.shrFlagSrc := rfl
@[simp] theorem State.report_started (w : Word) : (s.report w).started = s.started := rfl

/-! ### `State.markStarted` -/

@[simp] theorem State.markStarted_v : (s.markStarted).v = s.v := rfl
@[simp] theorem State.markStarted_i : (s.markStarted).i = s.i := rfl
@[simp] theorem State.markStarted_pc : (s.markStarted).pc = s.pc := rfl
@[simp] theorem State.markStarted_sp : (s.markStarted).sp = s.sp := rfl
@[simp] theorem State.markStarted_stack : (s.markStarted).stack = s.stack := rfl
@[simp] theorem State.markStarted_dt : (s.markStarted).dt = s.dt := rfl
@[simp] theorem State.markStarted_st : (s.markStarted).st = s.st := rfl
@[simp] theorem State.markStarted_slot : (s.markStarted).slot = s.slot := rfl
@[simp] theorem State.markStarted_mem : (s.markStarted).mem = s.mem := rfl
@[simp] theorem State.markStarted_display : (s.markStarted).display = s.display := rfl
@[simp] theorem State.markStarted_keys : (s.markStarted).keys = s.keys := rfl
@[simp] theorem State.markStarted_rnd : (s.markStarted).rnd = s.rnd := rfl
@[simp] theorem State.markStarted_draws : (s.markStarted).draws = s.draws := rfl
@[simp] theorem State.markStarted_keyFrames : (s.markStarted).keyFrames = s.keyFrames := rfl
@[simp] theorem State.markStarted_frames : (s.markStarted).frames = s.frames := rfl
@[simp] theorem State.markStarted_tickRequest : (s.markStarted).tickRequest = s.tickRequest := rfl
@[simp] theorem State.markStarted_resetRequest : (s.markStarted).resetRequest = s.resetRequest := rfl
@[simp] theorem State.markStarted_reports : (s.markStarted).reports = s.reports := rfl
@[simp] theorem State.markStarted_shrFlagSrc : (s.markStarted).shrFlagSrc = s.shrFlagSrc := rfl
@[simp] theorem State.markStarted_started : (s.markStarted).started = true := rfl

/-! ### `State.timerStep` -/

@[simp] theorem State.timerStep_v : (s.timerStep).v = s.v := rfl
@[simp] theorem State.timerStep_i : (s.timerStep).i = s.i := rfl
@[simp] theorem State.timerStep_pc : (s.timerStep).pc = s.pc := rfl
@[simp] theorem State.timerStep_sp : (s.timerStep).sp = s.sp := rfl
@[simp] theorem State.timerStep_stack : (s.timerStep).stack = s.stack := rfl
@[simp] theorem State.timerStep_dt : (s.timerStep).dt = countDown s.dt := rfl
@[simp] theorem State.timerStep_st : (s.timerStep).st = countDown s.st := rfl
@[simp] theorem State.timerStep_slot : (s.timerStep).slot = s.slot := rfl
@[simp] theorem State.timerStep_mem : (s.timerStep).mem = s.mem := rfl
@[simp] theorem State.timerStep_display : (s.timerStep).display = s.display := rfl
@[simp] theorem State.timerStep_keys : (s.timerStep).keys = s.keys := rfl
@[simp] theorem State.timerStep_rnd : (s.timerStep).rnd = s.rnd := rfl
@[simp] theorem State.timerStep_draws : (s.timerStep).draws = s.draws := rfl
@[simp] theorem State.timerStep_keyFrames : (s.timerStep).keyFrames = s.keyFrames := rfl
@[simp] theorem State.timerStep_frames : (s.timerStep).frames = s.frames := rfl
@[simp] theorem State.timerStep_tickRequest : (s.timerStep).tickRequest = s.tickRequest := rfl
@[simp] theorem State.timerStep_resetRequest : (s.timerStep).resetRequest = s.resetRequest := rfl
@[simp] theorem State.timerStep_reports : (s.timerStep).reports = s.reports := rfl
@[simp] theorem State.timerStep_shrFlagSrc : (s.timerStep).shrFlagSrc = s.shrFlagSrc := rfl
@[simp] theorem State.timerStep_started : (s.timerStep).started = s.started := rfl

/-! ### `State.hostFrame` -/

@[simp] theorem State.hostFrame_v : (s.hostFrame).v = s.v := rfl
@[simp] theorem State.hostFrame_i : (s.hostFrame).i = s.i := rfl
@[simp] theorem State.hostFrame_pc : (s.hostFrame).pc = s.pc := rfl
@[simp] theorem State.hostFrame_sp : (s.hostFrame).sp = s.sp := rfl
@[simp] theorem State.hostFrame_stack : (s.hostFrame).stack = s.stack := rfl
@[simp] theorem State.hostFrame_dt : (s.hostFrame).dt = s.dt := rfl
@[simp] theorem State.hostFrame_st : (s.hostFrame).st = s.st := rfl
@[simp] theorem State.hostFrame_slot : (s.hostFrame).slot = s.slot := rfl
@[simp] theorem State.hostFrame_mem : (s.hostFrame).mem = s.mem := rfl
@[simp] theorem State.hostFrame_display : (s.hostFrame).display = s.display := rfl
@[simp] theorem State.hostFrame_keys : (s.hostFrame).keys = s.nextKeys := rfl
@[simp] theorem State.hostFrame_rnd : (s.hostFrame).rnd = s.rnd := rfl
@[simp] theorem State.hostFrame_draws : (s.hostFrame).draws = s.draws := rfl
@[simp] theorem State.hostFrame_keyFrames : (s.hostFrame).keyFrames = s.keyFrames.tail := rfl
@[simp] theorem State.hostFrame_frames : (s.hostFrame).frames = s.frames + 1 := rfl
@[simp] theorem State.hostFrame_tickRequest : (s.hostFrame).tickRequest = s.tickRequest := rfl
@[simp] theorem State.hostFrame_resetRequest : (s.hostFrame).resetRequest = s.resetRequest := rfl
@[simp] theorem State.hostFrame_reports : (s.hostFrame).reports = s.reports := rfl
@[simp] theorem State.hostFrame_shrFlagSrc : (s.hostFrame).shrFlagSrc = s.shrFlagSrc := rfl
@[simp] theorem State.hostFrame_started : (s.hostFrame).started = s.started := rfl

/-! ### `State.takeReset` -/

@[simp] theorem State.takeReset_v : (s.takeReset).v = Vector.replicate 16 0x00#8 := rfl
@[simp] theorem State.takeReset_i : (s.takeReset).i = 0x000#12 := rfl
@[simp] theorem State.takeReset_pc : (s.takeReset).pc = Config.resetPc := rfl
@[simp] theorem State.takeReset_sp : (s.takeReset).sp = 0x0#4 := rfl
@[simp] theorem State.takeReset_stack : (s.takeReset).stack = Vector.replicate 16 0x000#12 := rfl
@[simp] theorem State.takeReset_dt : (s.takeReset).dt = 0x00#8 := rfl
@[simp] theorem State.takeReset_st : (s.takeReset).st = 0x00#8 := rfl
@[simp] theorem State.takeReset_slot : (s.takeReset).slot = 0 := rfl
@[simp] theorem State.takeReset_mem : (s.takeReset).mem = s.mem := rfl
@[simp] theorem State.takeReset_display : (s.takeReset).display = s.display := rfl
@[simp] theorem State.takeReset_keys : (s.takeReset).keys = s.keys := rfl
@[simp] theorem State.takeReset_rnd : (s.takeReset).rnd = s.rnd := rfl
@[simp] theorem State.takeReset_draws : (s.takeReset).draws = s.draws := rfl
@[simp] theorem State.takeReset_keyFrames : (s.takeReset).keyFrames = s.keyFrames := rfl
@[simp] theorem State.takeReset_frames : (s.takeReset).frames = s.frames := rfl
@[simp] theorem State.takeReset_tickRequest : (s.takeReset).tickRequest = s.tickRequest := rfl
@[simp] theorem State.takeReset_resetRequest : (s.takeReset).resetRequest = false := rfl
@[simp] theorem State.takeReset_reports : (s.takeReset).reports = s.reports := rfl
@[simp] theorem State.takeReset_shrFlagSrc : (s.takeReset).shrFlagSrc = s.shrFlagSrc := rfl
@[simp] theorem State.takeReset_started : (s.takeReset).started = s.started := rfl

end

end Sys2Proof.Machine
end

