-- ==== Sys2Proof/Laws/Ops.lean ====
section
/-! SUPPORT. One lemma per shared operation that says what it does; the proofs about instructions cite these and never unfold
the operation. -/

namespace Sys2Proof.Machine

/-! ## Reading a register or a byte after an update -/

section
variable (s : State)

@[simp] theorem State.getV_setV (q : RegIdx) (b : Byte) (r : RegIdx) :
    (s.setV q b).getV r = if r = q then b else s.getV r := by
  simp only [State.getV, State.setV, Vector.getElem_set, BitVec.toNat_inj, eq_comm]

@[simp] theorem State.getV_setI (a : Addr) (r : RegIdx) : (s.setI a).getV r = s.getV r := rfl
@[simp] theorem State.getV_setPc (a : Addr) (r : RegIdx) : (s.setPc a).getV r = s.getV r := rfl
@[simp] theorem State.getV_setDt (b : Byte) (r : RegIdx) : (s.setDt b).getV r = s.getV r := rfl
@[simp] theorem State.getV_setSt (b : Byte) (r : RegIdx) : (s.setSt b).getV r = s.getV r := rfl
@[simp] theorem State.getV_setDisplay (d : Display) (r : RegIdx) : (s.setDisplay d).getV r = s.getV r := rfl
@[simp] theorem State.getV_setSlot (n : Nat) (r : RegIdx) : (s.setSlot n).getV r = s.getV r := rfl
@[simp] theorem State.getV_writeByte (a : Addr) (b : Byte) (r : RegIdx) : (s.writeByte a b).getV r = s.getV r := rfl
@[simp] theorem State.getV_pushPc (r : RegIdx) : (s.pushPc).getV r = s.getV r := rfl
@[simp] theorem State.getV_popPc (r : RegIdx) : (s.popPc).getV r = s.getV r := rfl
@[simp] theorem State.getV_afterDraw (r : RegIdx) : (s.afterDraw).getV r = s.getV r := rfl
@[simp] theorem State.getV_report (w : Word) (r : RegIdx) : (s.report w).getV r = s.getV r := rfl
@[simp] theorem State.getV_markStarted (r : RegIdx) : (s.markStarted).getV r = s.getV r := rfl
@[simp] theorem State.getV_timerStep (r : RegIdx) : (s.timerStep).getV r = s.getV r := rfl
@[simp] theorem State.getV_hostFrame (r : RegIdx) : (s.hostFrame).getV r = s.getV r := rfl

@[simp] theorem State.readByte_setV (q : RegIdx) (b : Byte) (j : Addr) : (s.setV q b).readByte j = s.readByte j := rfl
@[simp] theorem State.readByte_setI (a : Addr) (j : Addr) : (s.setI a).readByte j = s.readByte j := rfl
@[simp] theorem State.readByte_setPc (a : Addr) (j : Addr) : (s.setPc a).readByte j = s.readByte j := rfl
@[simp] theorem State.readByte_setDt (b : Byte) (j : Addr) : (s.setDt b).readByte j = s.readByte j := rfl
@[simp] theorem State.readByte_setSt (b : Byte) (j : Addr) : (s.setSt b).readByte j = s.readByte j := rfl
@[simp] theorem State.readByte_setDisplay (d : Display) (j : Addr) : (s.setDisplay d).readByte j = s.readByte j := rfl
@[simp] theorem State.readByte_setSlot (n : Nat) (j : Addr) : (s.setSlot n).readByte j = s.readByte j := rfl
@[simp] theorem State.readByte_pushPc (j : Addr) : (s.pushPc).readByte j = s.readByte j := rfl
@[simp] theorem State.readByte_popPc (j : Addr) : (s.popPc).readByte j = s.readByte j := rfl
@[simp] theorem State.readByte_afterDraw (j : Addr) : (s.afterDraw).readByte j = s.readByte j := rfl
@[simp] theorem State.readByte_report (w : Word) (j : Addr) : (s.report w).readByte j = s.readByte j := rfl
@[simp] theorem State.readByte_markStarted (j : Addr) : (s.markStarted).readByte j = s.readByte j := rfl
@[simp] theorem State.readByte_timerStep (j : Addr) : (s.timerStep).readByte j = s.readByte j := rfl
@[simp] theorem State.readByte_hostFrame (j : Addr) : (s.hostFrame).readByte j = s.readByte j := rfl
@[simp] theorem State.readByte_takeReset (j : Addr) : (s.takeReset).readByte j = s.readByte j := rfl
end

/-! ## Registers, PC, the call stack -/

/-- Every register after a result and a flag: VF holds the flag, also where it is the destination (R13). -/
@[simp] theorem State.getV_setResultAndFlag (s : State) (x : RegIdx) (result : Byte) (flag : Bool) (r : RegIdx) :
    (s.setResultAndFlag x result flag).getV r =
      if r = 0xF#4 then (if flag then 0x01#8 else 0x00#8) else if r = x then result else s.getV r := by
  simp [State.setResultAndFlag]

/-- A result and a flag change registers only. -/
theorem State.setResultAndFlag_eq (s : State) (x : RegIdx) (result : Byte) (flag : Bool) :
    s.setResultAndFlag x result flag = { s with v := (s.setResultAndFlag x result flag).v } := rfl

/-- A skip changes PC only. -/
theorem State.skipIf_eq (s : State) (c : Bool) :
    s.skipIf c = s.setPc (if c then s.pc + 0x002#12 else s.pc) := by
  cases c <;> rfl

/-- The return address stands in the entry SP named; every other entry is unchanged. -/
theorem State.stack_pushPc (s : State) (k : StackPtr) :
    s.pushPc.stack[k.toNat]'(k.isLt) = if k = s.sp then s.pc else s.stack[k.toNat]'(k.isLt) := by
  simp only [State.pushPc, Vector.getElem_set, BitVec.toNat_inj, eq_comm]

/-- A pop after a push gives back PC and SP. -/
theorem State.popPc_pushPc (s : State) (a : Addr) :
    (s.pushPc.setPc a).popPc.pc = s.pc ∧ (s.pushPc.setPc a).popPc.sp = s.sp := by
  have h : s.sp + 0x1#4 - 0x1#4 = s.sp := by simp
  constructor
  · simp [State.popPc, State.pushPc, State.setPc]
  · exact h

/-! ## Display -/

theorem setCell_getLsbD (row : DisplayRow) (col : Nat) (hc : col < 64) (b : Bool) (j : Nat) :
    (setCell row col b).getLsbD j = if j = col then b else row.getLsbD j := by
  by_cases hj : j = col
  · subst hj; cases b <;> simp [setCell, hc]
  · have : ¬ (col = j) := fun h => hj h.symm
    cases b <;> simp [setCell, hj, this]
    all_goals
      intro h
      exact BitVec.lt_of_getLsbD h

/-- A cell reads as last written; every other cell is unchanged (R32). -/
theorem pixel_setPixel (d : Display) (k : Nat) (hk : k < 2048) (b : Bool) (j : Nat) :
    pixel (setPixel d k b) j = if j = k then b else pixel d j := by
  have hrow : k / 64 < 32 := by omega
  have hcol : k % 64 < 64 := by omega
  simp only [pixel, setPixel, Vector.getElem?_setIfInBounds, hrow, if_true]
  by_cases hr : k / 64 = j / 64
  · simp only [hr, if_true, Option.getD_some]
    rw [setCell_getLsbD _ _ hcol]
    by_cases hj : j = k
    · subst hj; simp
    · have : ¬ (j % 64 = k % 64) := by omega
      simp [hj, this]
  · have hj : ¬ (j = k) := by intro h; subst h; exact hr rfl
    simp [hr, hj]

/-- A cleared display has every cell off (R130). -/
@[simp] theorem pixel_clearedDisplay (k : Nat) : pixel clearedDisplay k = false := by
  simp only [pixel, clearedDisplay, Vector.getElem?_replicate]
  split <;> simp

/-- No cell lies outside 0 to 2047. -/
theorem pixel_lt {d : Display} {k : Nat} (h : pixel d k = true) : k < 2048 := by
  by_contra hk
  have : ¬ (k / 64 < 32) := by omega
  simp [pixel, this] at h

theorem State.pixel_ext {d e : Display} (h : ∀ k, k < 2048 → pixel d k = pixel e k) : d = e := by
  apply Vector.ext
  intro r hr
  apply BitVec.eq_of_getLsbD_eq
  intro c hc
  have hk := h (r * 64 + c) (by omega)
  have h1 : (r * 64 + c) / 64 = r := by omega
  have h2 : (r * 64 + c) % 64 = c := by omega
  simpa [pixel, h1, h2, hr] using hk

/-! ## The timers and the tick -/

/-- A countdown as a number: one less, never below zero (R160). -/
theorem countDown_toNat (t : Byte) : (countDown t).toNat = t.toNat - 1 := by
  unfold countDown
  split
  · next h => subst h; rfl
  · next h =>
    have : t.toNat ≠ 0 := fun h0 => h (BitVec.eq_of_toNat_eq (by simpa using h0))
    have := t.isLt
    simp only [BitVec.toNat_sub, BitVec.toNat_ofNat]
    omega

/-- What the end of a slot does, a tick having begun: inside the tick it counts the slot; at the tick's last slot it is the timer step, the host's frame
and the return to slot 0 (R85). -/
theorem State.endSlot_cases (s : State) :
    (s.slot + 1 < Config.ipt ∧ s.endSlot = s.markStarted.setSlot (s.slot + 1))
      ∨ (Config.ipt ≤ s.slot + 1 ∧ s.endSlot = (s.markStarted.timerStep.setSlot 0).hostFrame) := by
  unfold State.endSlot
  split
  · next h => exact .inl ⟨h, rfl⟩
  · next h => exact .inr ⟨Nat.le_of_not_lt h, rfl⟩

/-- After a slot a tick has begun. -/
@[simp] theorem State.endSlot_started (s : State) : s.endSlot.started = true := by
  rcases s.endSlot_cases with ⟨-, h⟩ | ⟨-, h⟩ <;> rw [h] <;> rfl

/-! ## Register ranges, stores and loads at I -/

theorem mem_regRange (x r : RegIdx) : r ∈ regRange x ↔ r.toNat ≤ x.toNat := by
  simp only [regRange, List.mem_map, List.mem_range]
  constructor
  · rintro ⟨k, hk, rfl⟩
    have := x.isLt
    simp only [BitVec.toNat_ofNat]
    omega
  · intro h
    exact ⟨r.toNat, by omega, by simp⟩

/-- A load puts into each register of the list the byte at I plus its index, and changes no other register (R125). -/
theorem State.getV_loadAtI (s : State) (rs : List RegIdx) (q : RegIdx) :
    (s.loadAtI rs).getV q = if q ∈ rs then s.readByte (s.dataAddr q.toNat) else s.getV q := by
  unfold State.loadAtI
  suffices ∀ t : State, (rs.foldl (fun t r => t.setV r (s.readByte (s.dataAddr r.toNat))) t).getV q
      = if q ∈ rs then s.readByte (s.dataAddr q.toNat) else t.getV q from this s
  induction rs with
  | nil => intro t; simp
  | cons r rs ih =>
    intro t
    simp only [List.foldl_cons, ih, List.mem_cons, State.getV_setV]
    by_cases h : q = r
    · subst h; simp
    · simp [h]

/-- A load changes registers only. -/
theorem State.loadAtI_eq (s : State) (rs : List RegIdx) : s.loadAtI rs = { s with v := (s.loadAtI rs).v } := by
  unfold State.loadAtI
  suffices ∀ (f : RegIdx → Byte) (t : State), rs.foldl (fun t r => t.setV r (f r)) t
      = { t with v := (rs.foldl (fun t r => t.setV r (f r)) t).v } from this _ s
  intro f
  induction rs with
  | nil => intro t; rfl
  | cons r rs ih => intro t; rw [List.foldl_cons, ih (t.setV r (f r))]; rfl

/-- Stores at I change Memory only. -/
theorem State.storeAtI_eq (s : State) (cells : List (Nat × Byte)) :
    s.storeAtI cells = { s with mem := (s.storeAtI cells).mem } := by
  unfold State.storeAtI
  suffices ∀ (f : Nat → Addr) (t : State), cells.foldl (fun t c => t.writeByte (f c.1) c.2) t
      = { t with mem := (cells.foldl (fun t c => t.writeByte (f c.1) c.2) t).mem } from this _ s
  intro f
  induction cells with
  | nil => intro t; rfl
  | cons c cells ih => intro t; rw [List.foldl_cons, ih (t.writeByte (f c.1) c.2)]; rfl

/-- Stores in order leave every byte unchanged whose address is none of theirs. -/
theorem readByte_foldl_writeByte (f : Nat → Addr) (cells : List (Nat × Byte)) (a : Addr) (h : ∀ c ∈ cells, a ≠ f c.1) :
    ∀ t : State, (cells.foldl (fun t c => t.writeByte (f c.1) c.2) t).readByte a = t.readByte a := by
  induction cells with
  | nil => intro t; rfl
  | cons c cells ih =>
    intro t
    rw [List.foldl_cons, ih (fun c hc => h c (by simp [hc])), State.readByte_writeByte]
    simp [h c (by simp)]

/-- Stores at I leave every byte unchanged whose address is none of theirs. -/
theorem State.readByte_storeAtI_other (s : State) (cells : List (Nat × Byte)) (a : Addr)
    (h : ∀ c ∈ cells, a ≠ s.dataAddr c.1) : (s.storeAtI cells).readByte a = s.readByte a :=
  readByte_foldl_writeByte s.dataAddr cells a h s

/-- The effective addresses of two small offsets differ when the offsets do. -/
theorem State.dataAddr_inj (s : State) {j k : Nat} (hj : j < 4096) (hk : k < 4096) (h : s.dataAddr j = s.dataAddr k) : j = k := by
  simp only [State.dataAddr, BitVec.add_right_inj] at h
  have := congrArg BitVec.toNat h
  simp only [BitVec.toNat_ofNat] at this
  omega

/-- Stores at I at offsets without a repeat: the byte at each offset is the one stored there (R123, R124). -/
theorem State.readByte_storeAtI (s : State) (cells : List (Nat × Byte)) (hn : (cells.map Prod.fst).Nodup)
    (hlt : ∀ c ∈ cells, c.1 < 4096) {c : Nat × Byte} (hc : c ∈ cells) :
    (s.storeAtI cells).readByte (s.dataAddr c.1) = c.2 := by
  unfold State.storeAtI
  suffices ∀ t : State,
      (cells.foldl (fun t c => t.writeByte (s.dataAddr c.1) c.2) t).readByte (s.dataAddr c.1) = c.2 from this s
  induction cells with
  | nil => simp at hc
  | cons d cells ih =>
    intro t
    rw [List.map_cons, List.nodup_cons] at hn
    rw [List.foldl_cons]
    by_cases hin : c ∈ cells
    · exact ih hn.2 (fun c hc => hlt c (by simp [hc])) hin _
    · obtain rfl : c = d := by simpa [hin] using hc
      rw [readByte_foldl_writeByte s.dataAddr cells _ (fun e he h => ?_), State.readByte_writeByte, if_pos rfl]
      have := s.dataAddr_inj (hlt c (by simp)) (hlt e (by simp [he])) h
      exact hn.1 (List.mem_map.mpr ⟨e, he, this.symm⟩)

/-! ## The key scan -/

theorem mem_keyScan (k : KeyIdx) : k ∈ keyScan :=
  List.mem_map.mpr ⟨k.toNat, List.mem_range.mpr k.isLt, by simp⟩

/-- The scan finds no key exactly when none is pressed (R142). -/
theorem State.lowestKey_none (s : State) : s.lowestKey = none ↔ ∀ k, s.keyPressed k = false := by
  simp only [State.lowestKey, List.find?_eq_none, Bool.not_eq_true]
  exact ⟨fun h k => h k (mem_keyScan k), fun h k _ => h k⟩

/-- The scan finds a pressed key below which none is pressed (R142). -/
theorem State.lowestKey_some {s : State} {k : KeyIdx} (h : s.lowestKey = some k) :
    s.keyPressed k = true ∧ ∀ j, j < k → s.keyPressed j = false := by
  have hsorted : keyScan.Pairwise (· < ·) := by decide
  rw [State.lowestKey, List.find?_eq_some_iff_append] at h
  obtain ⟨hk, as, bs, heq, hbefore⟩ := h
  refine ⟨hk, fun j hj => ?_⟩
  have hj' := mem_keyScan j
  rw [heq] at hj' hsorted
  rcases List.mem_append.mp hj' with hin | hin
  · simpa using hbefore j hin
  · rw [List.pairwise_append] at hsorted
    rcases List.mem_cons.mp hin with rfl | hin
    · exact absurd hj (by simp)
    · have := (List.pairwise_cons.mp hsorted.2.1).1 j hin
      exact absurd hj (by bv_omega)

end Sys2Proof.Machine
end

