-- ==== Sys2Proof/Laws/Exec.lean ====
section
/-! SUPPORT. What every instruction keeps, and what one step of the machine can be; whole-machine claims cite these two and do not
split the dispatch again. -/

namespace Sys2Proof.Machine

/-- What the execute part of any instruction keeps: the tick's sequencing and the host's inputs, the canonical form of Memory, the
parameter SHR_FLAG_SRC, whether a tick has begun, and every report already emitted. -/
structure ExecKeeps (i : Instr) (s t : State) : Prop where
  slot : t.slot = s.slot
  keys : t.keys = s.keys
  keyFrames : t.keyFrames = s.keyFrames
  frames : t.frames = s.frames
  tickRequest : t.tickRequest = s.tickRequest
  resetRequest : t.resetRequest = s.resetRequest
  memory : s.mem.wf = true → t.mem.wf = true
  shrFlagSrc : t.shrFlagSrc = s.shrFlagSrc
  started : t.started = s.started
  reports : t.reports = s.reports ∨ ∃ w, i = .unrecognized w ∧ t.reports = s.reports ++ [w]

/-- An update of registers, I, PC, the stack, the timers, Display or the random source keeps all of it. -/
theorem ExecKeeps.of_fields {i : Instr} {s t : State} (slot : t.slot = s.slot) (keys : t.keys = s.keys)
    (keyFrames : t.keyFrames = s.keyFrames) (frames : t.frames = s.frames) (tickRequest : t.tickRequest = s.tickRequest)
    (resetRequest : t.resetRequest = s.resetRequest) (mem : t.mem = s.mem)
    (shrFlagSrc : t.shrFlagSrc = s.shrFlagSrc) (started : t.started = s.started) (reports : t.reports = s.reports) : ExecKeeps i s t :=
  ⟨slot, keys, keyFrames, frames, tickRequest, resetRequest, fun h => mem ▸ h, shrFlagSrc, started, .inl reports⟩

theorem ExecKeeps.skipIf {i : Instr} (s : State) (c : Bool) : ExecKeeps i s (s.skipIf c) := by
  rw [State.skipIf_eq]; exact .of_fields rfl rfl rfl rfl rfl rfl rfl rfl rfl rfl

theorem ExecKeeps.storeAtI {i : Instr} (s : State) (cells : List (Nat × Byte)) : ExecKeeps i s (s.storeAtI cells) := by
  have h := State.storeAtI_eq s cells
  refine ⟨?_, ?_, ?_, ?_, ?_, ?_, State.wf_storeAtI cells, ?_, ?_, .inl ?_⟩ <;> rw [h]

theorem ExecKeeps.loadAtI {i : Instr} (s : State) (rs : List RegIdx) : ExecKeeps i s (s.loadAtI rs) := by
  rw [State.loadAtI_eq]; exact .of_fields rfl rfl rfl rfl rfl rfl rfl rfl rfl rfl

/-- Every instruction completes, and keeps what `ExecKeeps` names. -/
theorem exec_next (i : Instr) (s : State) : ∃ t, exec i s = .next t ∧ ExecKeeps i s t := by
  cases i with
  | cls => exact ⟨_, rfl, .of_fields rfl rfl rfl rfl rfl rfl rfl rfl rfl rfl⟩
  | ret => exact ⟨_, rfl, .of_fields rfl rfl rfl rfl rfl rfl rfl rfl rfl rfl⟩
  | jp nnn => exact ⟨_, rfl, .of_fields rfl rfl rfl rfl rfl rfl rfl rfl rfl rfl⟩
  | call nnn => exact ⟨_, rfl, .of_fields rfl rfl rfl rfl rfl rfl rfl rfl rfl rfl⟩
  | seImm x nn => exact ⟨_, rfl, .skipIf _ _⟩
  | sneImm x nn => exact ⟨_, rfl, .skipIf _ _⟩
  | seReg x y => exact ⟨_, rfl, .skipIf _ _⟩
  | ldImm x nn => exact ⟨_, rfl, .of_fields rfl rfl rfl rfl rfl rfl rfl rfl rfl rfl⟩
  | addImm x nn => exact ⟨_, rfl, .of_fields rfl rfl rfl rfl rfl rfl rfl rfl rfl rfl⟩
  | ldReg x y => exact ⟨_, rfl, .of_fields rfl rfl rfl rfl rfl rfl rfl rfl rfl rfl⟩
  | orReg x y => exact ⟨_, rfl, .of_fields rfl rfl rfl rfl rfl rfl rfl rfl rfl rfl⟩
  | andReg x y => exact ⟨_, rfl, .of_fields rfl rfl rfl rfl rfl rfl rfl rfl rfl rfl⟩
  | xorReg x y => exact ⟨_, rfl, .of_fields rfl rfl rfl rfl rfl rfl rfl rfl rfl rfl⟩
  | addReg x y => exact ⟨_, rfl, .of_fields rfl rfl rfl rfl rfl rfl rfl rfl rfl rfl⟩
  | subReg x y => exact ⟨_, rfl, .of_fields rfl rfl rfl rfl rfl rfl rfl rfl rfl rfl⟩
  | shrReg x y => exact ⟨_, rfl, .of_fields rfl rfl rfl rfl rfl rfl rfl rfl rfl rfl⟩
  | subnReg x y => exact ⟨_, rfl, .of_fields rfl rfl rfl rfl rfl rfl rfl rfl rfl rfl⟩
  | shlReg x y => exact ⟨_, rfl, .of_fields rfl rfl rfl rfl rfl rfl rfl rfl rfl rfl⟩
  | sneReg x y => exact ⟨_, rfl, .skipIf _ _⟩
  | ldI nnn => exact ⟨_, rfl, .of_fields rfl rfl rfl rfl rfl rfl rfl rfl rfl rfl⟩
  | jpV0 nnn => exact ⟨_, rfl, .of_fields rfl rfl rfl rfl rfl rfl rfl rfl rfl rfl⟩
  | rnd x nn => exact ⟨_, rfl, .of_fields rfl rfl rfl rfl rfl rfl rfl rfl rfl rfl⟩
  | drw x y n => refine ⟨_, rfl, ?_⟩; split <;> exact .of_fields rfl rfl rfl rfl rfl rfl rfl rfl rfl rfl
  | skp x => exact ⟨_, rfl, .skipIf _ _⟩
  | sknp x => exact ⟨_, rfl, .skipIf _ _⟩
  | ldVxDt x => exact ⟨_, rfl, .of_fields rfl rfl rfl rfl rfl rfl rfl rfl rfl rfl⟩
  | ldVxK x =>
    simp only [exec, execLdVxK]
    split <;> exact ⟨_, rfl, .of_fields rfl rfl rfl rfl rfl rfl rfl rfl rfl rfl⟩
  | ldDtVx x => exact ⟨_, rfl, .of_fields rfl rfl rfl rfl rfl rfl rfl rfl rfl rfl⟩
  | ldStVx x => exact ⟨_, rfl, .of_fields rfl rfl rfl rfl rfl rfl rfl rfl rfl rfl⟩
  | addI x => exact ⟨_, rfl, .of_fields rfl rfl rfl rfl rfl rfl rfl rfl rfl rfl⟩
  | ldF x => exact ⟨_, rfl, .of_fields rfl rfl rfl rfl rfl rfl rfl rfl rfl rfl⟩
  | ldB x => exact ⟨_, rfl, .storeAtI _ _⟩
  | storeRegs x => exact ⟨_, rfl, .storeAtI _ _⟩
  | loadRegs x => exact ⟨_, rfl, .loadAtI _ _⟩
  | unrecognized w => exact ⟨_, rfl, rfl, rfl, rfl, rfl, rfl, rfl, id, rfl, rfl, .inr ⟨w, rfl, rfl⟩⟩

/-- What one step is: a reset taken, an idle state kept, or one instruction executed and its slot ended. -/
theorem step_cases (s : State) :
    (s.resetRequest = true ∧ step s = .next s.takeReset)
      ∨ (s.resetRequest = false ∧ s.slot = 0 ∧ s.tickRequest = false ∧ step s = .next s)
      ∨ (s.running ∧ ∃ t, exec (decodeWord s.fetchWord) s.advancePc = .next t ∧ step s = .next t.endSlot) := by
  unfold step State.machineStep
  split
  · next h => exact .inl ⟨h, rfl⟩
  · next h =>
    have hr : s.resetRequest = false := by simpa using h
    split
    · next hi =>
      have hi : s.slot = 0 ∧ s.tickRequest = false := by simpa [State.idle] using hi
      exact .inr (.inl ⟨hr, hi.1, hi.2, rfl⟩)
    · next hi =>
      have hrun : s.slot = 0 → s.tickRequest = true := by simpa [State.idle] using hi
      obtain ⟨t, ht, -⟩ := exec_next (decodeWord s.fetchWord) s.advancePc
      exact .inr (.inr ⟨⟨hr, hrun⟩, t, ht, by simp [State.slotStep, State.instructionStep, ht]⟩)

end Sys2Proof.Machine
end

