-- ==== Sys2Proof/Laws/PerInstr.lean ====
section
/-! SUPPORT. Statements for all instructions, one lemma per constructor. Family RowMatch: the encoded word of an instruction carries
the fixed bits of its row of the opcode map (R66); an unrecognized word has no row. -/

namespace Sys2Proof.Laws.RowMatch

/-- The word of the instruction matches the row of its number, where the opcode map has a row of that number. -/
def Statement (i : Instr) : Prop := ∀ r ∈ opcodeRows[i.rowNumber - 1]?, r.selects (encode i) = true

/-- The row of an instruction found, its mask applied. -/
theorem of_row {i : Instr} {r : OpcodeRow} (hr : opcodeRows[i.rowNumber - 1]? = some r) (h : encode i &&& r.mask = r.value) :
    Statement i := by
  intro q hq
  obtain rfl : r = q := by simpa [hr] using hq
  simpa [OpcodeRow.selects] using h

theorem cls : Statement (.cls) :=
  of_row rfl rfl

theorem ret : Statement (.ret) :=
  of_row rfl rfl

theorem jp (nnn : Addr) : Statement (.jp nnn) :=
  of_row rfl (by rw [and_F000]; simp only [encode]; simp; rfl)

theorem call (nnn : Addr) : Statement (.call nnn) :=
  of_row rfl (by rw [and_F000]; simp only [encode]; simp; rfl)

theorem seImm (x : RegIdx) (nn : Byte) : Statement (.seImm x nn) :=
  of_row rfl (by rw [and_F000]; simp only [encode]; simp; rfl)

theorem sneImm (x : RegIdx) (nn : Byte) : Statement (.sneImm x nn) :=
  of_row rfl (by rw [and_F000]; simp only [encode]; simp; rfl)

theorem seReg (x y : RegIdx) : Statement (.seReg x y) :=
  of_row rfl (by rw [and_F00F]; simp only [encode]; simp; rfl)

theorem ldImm (x : RegIdx) (nn : Byte) : Statement (.ldImm x nn) :=
  of_row rfl (by rw [and_F000]; simp only [encode]; simp; rfl)

theorem addImm (x : RegIdx) (nn : Byte) : Statement (.addImm x nn) :=
  of_row rfl (by rw [and_F000]; simp only [encode]; simp; rfl)

theorem ldReg (x y : RegIdx) : Statement (.ldReg x y) :=
  of_row rfl (by rw [and_F00F]; simp only [encode]; simp; rfl)

theorem orReg (x y : RegIdx) : Statement (.orReg x y) :=
  of_row rfl (by rw [and_F00F]; simp only [encode]; simp; rfl)

theorem andReg (x y : RegIdx) : Statement (.andReg x y) :=
  of_row rfl (by rw [and_F00F]; simp only [encode]; simp; rfl)

theorem xorReg (x y : RegIdx) : Statement (.xorReg x y) :=
  of_row rfl (by rw [and_F00F]; simp only [encode]; simp; rfl)

theorem addReg (x y : RegIdx) : Statement (.addReg x y) :=
  of_row rfl (by rw [and_F00F]; simp only [encode]; simp; rfl)

theorem subReg (x y : RegIdx) : Statement (.subReg x y) :=
  of_row rfl (by rw [and_F00F]; simp only [encode]; simp; rfl)

theorem shrReg (x y : RegIdx) : Statement (.shrReg x y) :=
  of_row rfl (by rw [and_F00F]; simp only [encode]; simp; rfl)

theorem subnReg (x y : RegIdx) : Statement (.subnReg x y) :=
  of_row rfl (by rw [and_F00F]; simp only [encode]; simp; rfl)

theorem shlReg (x y : RegIdx) : Statement (.shlReg x y) :=
  of_row rfl (by rw [and_F00F]; simp only [encode]; simp; rfl)

theorem sneReg (x y : RegIdx) : Statement (.sneReg x y) :=
  of_row rfl (by rw [and_F00F]; simp only [encode]; simp; rfl)

theorem ldI (nnn : Addr) : Statement (.ldI nnn) :=
  of_row rfl (by rw [and_F000]; simp only [encode]; simp; rfl)

theorem jpV0 (nnn : Addr) : Statement (.jpV0 nnn) :=
  of_row rfl (by rw [and_F000]; simp only [encode]; simp; rfl)

theorem rnd (x : RegIdx) (nn : Byte) : Statement (.rnd x nn) :=
  of_row rfl (by rw [and_F000]; simp only [encode]; simp; rfl)

theorem drw (x y : RegIdx) (n : BitVec 4) : Statement (.drw x y n) :=
  of_row rfl (by rw [and_F000]; simp only [encode]; simp; rfl)

theorem skp (x : RegIdx) : Statement (.skp x) :=
  of_row rfl (by rw [and_F0FF]; simp only [encode]; simp; rfl)

theorem sknp (x : RegIdx) : Statement (.sknp x) :=
  of_row rfl (by rw [and_F0FF]; simp only [encode]; simp; rfl)

theorem ldVxDt (x : RegIdx) : Statement (.ldVxDt x) :=
  of_row rfl (by rw [and_F0FF]; simp only [encode]; simp; rfl)

theorem ldVxK (x : RegIdx) : Statement (.ldVxK x) :=
  of_row rfl (by rw [and_F0FF]; simp only [encode]; simp; rfl)

theorem ldDtVx (x : RegIdx) : Statement (.ldDtVx x) :=
  of_row rfl (by rw [and_F0FF]; simp only [encode]; simp; rfl)

theorem ldStVx (x : RegIdx) : Statement (.ldStVx x) :=
  of_row rfl (by rw [and_F0FF]; simp only [encode]; simp; rfl)

theorem addI (x : RegIdx) : Statement (.addI x) :=
  of_row rfl (by rw [and_F0FF]; simp only [encode]; simp; rfl)

theorem ldF (x : RegIdx) : Statement (.ldF x) :=
  of_row rfl (by rw [and_F0FF]; simp only [encode]; simp; rfl)

theorem ldB (x : RegIdx) : Statement (.ldB x) :=
  of_row rfl (by rw [and_F0FF]; simp only [encode]; simp; rfl)

theorem storeRegs (x : RegIdx) : Statement (.storeRegs x) :=
  of_row rfl (by rw [and_F0FF]; simp only [encode]; simp; rfl)

theorem loadRegs (x : RegIdx) : Statement (.loadRegs x) :=
  of_row rfl (by rw [and_F0FF]; simp only [encode]; simp; rfl)

theorem unrecognized (w : Word) : Statement (.unrecognized w) := by
  intro q hq
  simp [opcodeRows, Instr.rowNumber] at hq

end Sys2Proof.Laws.RowMatch
end

