-- ==== Sys2Proof/Laws/Sprite.lean ====
section
/-! SUPPORT. The cells of a sprite, and what plotting a list of cells does: the cells are those under a set bit on the screen, each once and
inside Display; plotting toggles exactly the listed cells and notes a collision exactly when one of them was on (R131 to R134). -/

namespace Sys2Proof.Machine

/-! ## The cells -/

/-- The cells of one row. The columns are listed in ascending order, as the loop visits them. -/
theorem mem_rowCells {b : Byte} {py ox : Nat} {cols : List Nat} (hs : cols.Pairwise (· < ·)) {k : Nat} :
    k ∈ rowCells b py ox cols ↔ ∃ col ∈ cols, ox + col < 64 ∧ spriteBit b col = true ∧ k = cellIndex py (ox + col) := by
  induction cols with
  | nil => simp [rowCells]
  | cons col cols ih =>
    rw [List.pairwise_cons] at hs
    by_cases hclip : ox + col ≥ 64
    · have hnone : ∀ c ∈ col :: cols, ¬ ox + c < 64 := by
        intro c hc
        rcases List.mem_cons.mp hc with rfl | hc
        · omega
        · have := hs.1 c hc; omega
      simp only [rowCells, Config.dispCols, hclip, if_true, List.not_mem_nil, false_iff]
      rintro ⟨c, hc, hlt, -⟩
      exact hnone c hc hlt
    · have hlt : ox + col < 64 := by omega
      cases hb : spriteBit b col <;> simp [rowCells, hclip, hb, hlt, ih hs.2]

/-- Each cell of a row stands in it once. -/
theorem nodup_rowCells {b : Byte} {py ox : Nat} {cols : List Nat} (hs : cols.Pairwise (· < ·)) : (rowCells b py ox cols).Nodup := by
  induction cols with
  | nil => simp [rowCells]
  | cons col cols ih =>
    rw [List.pairwise_cons] at hs
    simp only [rowCells]
    split
    · exact List.nodup_nil
    · split
      · rw [List.nodup_cons, mem_rowCells hs.2]
        refine ⟨?_, ih hs.2⟩
        rintro ⟨c, hc, -, -, heq⟩
        have := hs.1 c hc
        simp only [cellIndex] at heq
        omega
      · exact ih hs.2

/-- The cells of a sprite. The rows are listed in ascending order, as the loop visits them. -/
theorem State.mem_spriteCells {s : State} {ox oy : Nat} {rows : List Nat} (hs : rows.Pairwise (· < ·)) {k : Nat} :
    k ∈ s.spriteCells ox oy rows ↔ ∃ row ∈ rows, oy + row < 32 ∧ ∃ col < 8, ox + col < 64
      ∧ spriteBit (s.readByte (s.dataAddr row)) col = true ∧ k = cellIndex (oy + row) (ox + col) := by
  induction rows with
  | nil => simp [State.spriteCells]
  | cons row rows ih =>
    rw [List.pairwise_cons] at hs
    by_cases hclip : oy + row ≥ 32
    · simp only [State.spriteCells, Config.dispRows, hclip, if_true, List.not_mem_nil, false_iff]
      rintro ⟨r, hr, hlt, -⟩
      rcases List.mem_cons.mp hr with rfl | hr
      · omega
      · have := hs.1 r hr; omega
    · have hlt : oy + row < 32 := by omega
      have hcols : (List.range Config.spriteCols).Pairwise (· < ·) := List.pairwise_lt_range
      have hstep : s.spriteCells ox oy (row :: rows)
          = rowCells (s.readByte (s.dataAddr row)) (oy + row) ox (List.range Config.spriteCols) ++ s.spriteCells ox oy rows := by
        simp [State.spriteCells, hclip]
      rw [hstep, List.mem_append, ih hs.2, mem_rowCells hcols]
      simp only [List.mem_range, Config.spriteCols, List.mem_cons, exists_eq_or_imp, hlt, true_and]

/-- Each cell of a sprite is visited once (R131, corner cases). -/
theorem State.nodup_spriteCells {s : State} {ox oy : Nat} {rows : List Nat} (hs : rows.Pairwise (· < ·)) :
    (s.spriteCells ox oy rows).Nodup := by
  induction rows with
  | nil => simp [State.spriteCells]
  | cons row rows ih =>
    rw [List.pairwise_cons] at hs
    have hcols : (List.range Config.spriteCols).Pairwise (· < ·) := List.pairwise_lt_range
    simp only [State.spriteCells]
    split
    · exact List.nodup_nil
    · refine List.nodup_append.mpr ⟨nodup_rowCells hcols, ih hs.2, ?_⟩
      intro k hk j hj heq
      subst heq
      obtain ⟨col, -, hc, -, h1⟩ := (mem_rowCells hcols).mp hk
      obtain ⟨r, hr, -, col', -, hc', -, h2⟩ := (State.mem_spriteCells hs.2).mp hj
      have := hs.1 r hr
      simp only [cellIndex, Config.dispCols] at h1 h2
      omega

/-! ## Plotting -/

theorem pixel_plot (c : Canvas) (k : Nat) (hk : k < 2048) (j : Nat) :
    pixel (c.plot k).cells j = (pixel c.cells j ^^ decide (j = k)) := by
  simp only [Canvas.plot, pixel_setPixel _ _ hk]
  by_cases h : j = k
  · subst h; simp
  · simp [h]

@[simp] theorem Canvas.plot_hit (c : Canvas) (k : Nat) : (c.plot k).hit = (c.hit || pixel c.cells k) := rfl

/-- Plotting cells of Display, each once. -/
theorem Canvas.plotAll_spec (ks : List Nat) (hn : ks.Nodup) (hk : ∀ k ∈ ks, k < 2048) (c : Canvas) :
    (∀ j, pixel (c.plotAll ks).cells j = (pixel c.cells j ^^ decide (j ∈ ks)))
      ∧ ((c.plotAll ks).hit = true ↔ c.hit = true ∨ ∃ j ∈ ks, pixel c.cells j = true) := by
  induction ks generalizing c with
  | nil => simp [Canvas.plotAll]
  | cons k ks ih =>
    rw [List.nodup_cons] at hn
    have hk0 : k < 2048 := hk k (by simp)
    obtain ⟨hcells, hhit⟩ := ih hn.2 (fun j hj => hk j (by simp [hj])) (c.plot k)
    have hstep : c.plotAll (k :: ks) = (c.plot k).plotAll ks := rfl
    have hsame : ∀ j ∈ ks, pixel (c.plot k).cells j = pixel c.cells j := by
      intro j hj
      have hne : j ≠ k := by rintro rfl; exact hn.1 hj
      simp [pixel_plot _ _ hk0, hne]
    rw [hstep]
    constructor
    · intro j
      rw [hcells, pixel_plot _ _ hk0]
      by_cases hj : j = k
      · subst hj; simp [hn.1]
      · simp [hj]
    · rw [hhit, Canvas.plot_hit, Bool.or_eq_true, or_assoc]
      refine or_congr_right ?_
      simp only [List.mem_cons, exists_eq_or_imp]
      exact or_congr_right (exists_congr fun j => and_congr_right fun hj => by rw [hsame j hj])

end Sys2Proof.Machine
end

