-- ==== Sys2Proof/Tests/Slice0.lean ====
section
/-! SUPPORT. Tests: the WellFormed smoke, a word written out for every constructor, one or two single steps per instruction with results from
spec/95_test_vectors.md (the vector's name stands in the docstring), and for every statement with hypotheses a state that meets
them all. -/

namespace Sys2Proof.Tests

open Sys2Proof Sys2Proof.Machine

/-! ## WellFormed: each check refuses an ill-formed term -/

/-- A term that carries a recognized word is refused. -/
theorem test_wellFormed_refuses_unrecognized_cls : (Instr.unrecognized 0x00E0#16).wellFormed = false := by decide
/-- The same in the families with a sub-opcode. -/
theorem test_wellFormed_refuses_unrecognized_others :
    (Instr.unrecognized 0x1234#16).wellFormed = false ∧ (Instr.unrecognized 0x812E#16).wellFormed = false
      ∧ (Instr.unrecognized 0xE09E#16).wellFormed = false ∧ (Instr.unrecognized 0xF165#16).wellFormed = false := by decide
/-- The words of vectors V-UNR-1 to V-UNR-20 that sit beside a recognized one are accepted. -/
theorem test_wellFormed_accepts_unrecognized :
    (Instr.unrecognized 0x0000#16).wellFormed = true ∧ (Instr.unrecognized 0x00E1#16).wellFormed = true
      ∧ (Instr.unrecognized 0x5121#16).wellFormed = true ∧ (Instr.unrecognized 0x812D#16).wellFormed = true
      ∧ (Instr.unrecognized 0xE09F#16).wellFormed = true ∧ (Instr.unrecognized 0xF066#16).wellFormed = true := by decide

/-! ## Decode: the word of each row of R66, bit by bit from its pattern -/

theorem test_decode_cls : decodeWord 0b0000000011100000#16 = .cls := by decide
theorem test_decode_ret : decodeWord 0b0000000011101110#16 = .ret := by decide
theorem test_decode_jp : decodeWord 0b0001101010111100#16 = .jp 0xABC#12 := by decide
theorem test_decode_call : decodeWord 0b0010001000010000#16 = .call 0x210#12 := by decide
theorem test_decode_seImm : decodeWord 0b0011111100000001#16 = .seImm 0xF#4 0x01#8 := by decide
theorem test_decode_sneImm : decodeWord 0b0100001100010001#16 = .sneImm 0x3#4 0x11#8 := by decide
theorem test_decode_seReg : decodeWord 0b0101000100100000#16 = .seReg 0x1#4 0x2#4 := by decide
theorem test_decode_ldImm : decodeWord 0b0110111110101010#16 = .ldImm 0xF#4 0xAA#8 := by decide
theorem test_decode_addImm : decodeWord 0b0111000000000010#16 = .addImm 0x0#4 0x02#8 := by decide
theorem test_decode_ldReg : decodeWord 0b1000101000010000#16 = .ldReg 0xA#4 0x1#4 := by decide
theorem test_decode_orReg : decodeWord 0b1000101000010001#16 = .orReg 0xA#4 0x1#4 := by decide
theorem test_decode_andReg : decodeWord 0b1000101000010010#16 = .andReg 0xA#4 0x1#4 := by decide
theorem test_decode_xorReg : decodeWord 0b1000101000010011#16 = .xorReg 0xA#4 0x1#4 := by decide
theorem test_decode_addReg : decodeWord 0b1000101000010100#16 = .addReg 0xA#4 0x1#4 := by decide
theorem test_decode_subReg : decodeWord 0b1000101000010101#16 = .subReg 0xA#4 0x1#4 := by decide
theorem test_decode_shrReg : decodeWord 0b1000101000010110#16 = .shrReg 0xA#4 0x1#4 := by decide
theorem test_decode_subnReg : decodeWord 0b1000101000010111#16 = .subnReg 0xA#4 0x1#4 := by decide
theorem test_decode_shlReg : decodeWord 0b1000101000011110#16 = .shlReg 0xA#4 0x1#4 := by decide
theorem test_decode_sneReg : decodeWord 0b1001000100100000#16 = .sneReg 0x1#4 0x2#4 := by decide
theorem test_decode_ldI : decodeWord 0b1010001000010000#16 = .ldI 0x210#12 := by decide
theorem test_decode_jpV0 : decodeWord 0b1011001100000000#16 = .jpV0 0x300#12 := by decide
theorem test_decode_rnd : decodeWord 0b1100000100001111#16 = .rnd 0x1#4 0x0F#8 := by decide
theorem test_decode_drw : decodeWord 0b1101000100101111#16 = .drw 0x1#4 0x2#4 0xF#4 := by decide
theorem test_decode_skp : decodeWord 0b1110010110011110#16 = .skp 0x5#4 := by decide
theorem test_decode_sknp : decodeWord 0b1110010110100001#16 = .sknp 0x5#4 := by decide
theorem test_decode_ldVxDt : decodeWord 0b1111001000000111#16 = .ldVxDt 0x2#4 := by decide
theorem test_decode_ldVxK : decodeWord 0b1111000100001010#16 = .ldVxK 0x1#4 := by decide
theorem test_decode_ldDtVx : decodeWord 0b1111001100010101#16 = .ldDtVx 0x3#4 := by decide
theorem test_decode_ldStVx : decodeWord 0b1111010000011000#16 = .ldStVx 0x4#4 := by decide
theorem test_decode_addI : decodeWord 0b1111001000011110#16 = .addI 0x2#4 := by decide
theorem test_decode_ldF : decodeWord 0b1111001100101001#16 = .ldF 0x3#4 := by decide
theorem test_decode_ldB : decodeWord 0b1111011000110011#16 = .ldB 0x6#4 := by decide
theorem test_decode_storeRegs : decodeWord 0b1111001001010101#16 = .storeRegs 0x2#4 := by decide
theorem test_decode_loadRegs : decodeWord 0b1111001001100101#16 = .loadRegs 0x2#4 := by decide
/-- V-UNR-9: the fourth nibble 8 of family 8 falls to no neighbour. -/
theorem test_decode_unrecognized : decodeWord 0b1000000100101000#16 = .unrecognized 0x8128#16 := by decide
/-- A byte alone is no instruction. -/
theorem test_decode_truncated : decodeBytes [0x00#8] = .error .truncated := by rfl
/-- The host's table words: the first byte of the word is its high one (R42). -/
theorem test_decodeTableWord : decodeTableWord 16 0x6005 = some (.ldImm 0x0#4 0x05#8) := by decide

/-! ## Single steps -/

/-- The default start of 95_test_vectors.md: the reset state, PC at an address, a word there. -/
def placed (pc : Addr) (w : Word) : State := (State.reset.setPc pc).storeWord pc w

/-- The step answers a next state, of which something holds. -/
def stepGives (s : State) (p : State → Bool) : Bool :=
  match step s with
  | .next t => p t
  | .fault _ => false
  | .refused _ => false

/-- Keys pressed, the others released. -/
def pressing (s : State) (ks : List Nat) : State :=
  { s with keys := ks.foldl (fun keys k => keys.setIfInBounds k true) (Vector.replicate 16 false) }

/-- Cells turned on. -/
def lit (s : State) (ks : List Nat) : State := s.setDisplay (ks.foldl (fun d k => setPixel d k true) s.display)

/-- V-CYC-1: the high byte stands first. -/
theorem test_fetch_high_byte_first : stepGives (placed 0x200#12 0x1234#16) (fun t => t.pc == 0x234#12) = true := by decide
/-- V-CYC-3: a fetch across the top. -/
theorem test_fetch_across_top : stepGives (placed 0xFFF#12 0x6A55#16) (fun t => t.getV 0xA#4 == 0x55#8 && t.pc == 0x001#12) = true := by
  decide
/-- V-CF-1. -/
theorem test_ret : stepGives { placed 0x212#12 0x00EE#16 with sp := 1#4, stack := State.reset.stack.set 0 0x206#12 }
    (fun t => t.sp == 0#4 && t.pc == 0x206#12) = true := by decide
/-- V-CF-3: SP wraps below 0. -/
theorem test_ret_wraps : stepGives { placed 0x200#12 0x00EE#16 with stack := State.reset.stack.set 15 0x3AB#12 }
    (fun t => t.sp == 15#4 && t.pc == 0x3AB#12) = true := by decide
/-- V-CF-4. -/
theorem test_jp : stepGives (placed 0x200#12 0x1ABC#16) (fun t => t.pc == 0xABC#12) = true := by decide
/-- V-CF-7. -/
theorem test_call : stepGives (placed 0x204#12 0x2210#16) (fun t => t.sp == 1#4 && t.stack[0] == 0x206#12 && t.pc == 0x210#12) = true := by
  decide
/-- V-CF-8: the 16th nested call. -/
theorem test_call_sixteenth : stepGives { placed 0x300#12 0x2400#16 with sp := 15#4 }
    (fun t => t.sp == 0#4 && t.stack[15] == 0x302#12 && t.pc == 0x400#12) = true := by decide
/-- V-CF-13: a skip across the top. -/
theorem test_seImm_wraps : stepGives (placed 0xFFC#12 0x3000#16) (fun t => t.pc == 0x000#12) = true := by decide
/-- V-CF-12. -/
theorem test_seImm_no_skip : stepGives ((placed 0x208#12 0x3000#16).setV 0x0#4 0x01#8) (fun t => t.pc == 0x20A#12) = true := by decide
/-- V-CF-15. -/
theorem test_sneImm_skip : stepGives ((placed 0x300#12 0x4311#16).setV 0x3#4 0x10#8) (fun t => t.pc == 0x304#12) = true := by decide
/-- V-CF-16. -/
theorem test_sneImm_no_skip : stepGives ((placed 0x300#12 0x4311#16).setV 0x3#4 0x11#8) (fun t => t.pc == 0x302#12) = true := by decide
/-- V-CF-18. -/
theorem test_seReg_skip : stepGives (((placed 0x220#12 0x5120#16).setV 0x1#4 0x07#8).setV 0x2#4 0x07#8) (fun t => t.pc == 0x224#12) = true := by
  decide
/-- V-CF-21. -/
theorem test_sneReg_skip : stepGives (((placed 0x220#12 0x9120#16).setV 0x1#4 0x07#8).setV 0x2#4 0x08#8) (fun t => t.pc == 0x224#12) = true := by
  decide
/-- V-CF-25: the sum is reduced modulo 0x1000. -/
theorem test_jpV0_wraps : stepGives ((placed 0x200#12 0xBFFE#16).setV 0x0#4 0xFF#8) (fun t => t.pc == 0x0FD#12) = true := by decide
/-- V-CF-26: V0 it is, not V2. -/
theorem test_jpV0_uses_v0 : stepGives (((placed 0x200#12 0xB210#16).setV 0x0#4 0x02#8).setV 0x2#4 0x40#8) (fun t => t.pc == 0x212#12) = true := by
  decide
/-- V-ALU-2. -/
theorem test_ldImm : stepGives (placed 0x200#12 0x6FAA#16) (fun t => t.getV 0xF#4 == 0xAA#8) = true := by decide
/-- V-ALU-3: no flag. -/
theorem test_addImm : stepGives (((placed 0x200#12 0x7002#16).setV 0x0#4 0xFF#8).setV 0xF#4 0x55#8)
    (fun t => t.getV 0x0#4 == 0x01#8 && t.getV 0xF#4 == 0x55#8) = true := by decide
/-- V-ALU-5. -/
theorem test_ldReg : stepGives ((placed 0x200#12 0x8010#16).setV 0x1#4 0x2A#8) (fun t => t.getV 0x0#4 == 0x2A#8) = true := by decide
/-- V-ALU-6. -/
theorem test_orReg : stepGives ((((placed 0x200#12 0x8011#16).setV 0x0#4 0xF0#8).setV 0x1#4 0x0F#8).setV 0xF#4 0x55#8)
    (fun t => t.getV 0x0#4 == 0xFF#8 && t.getV 0xF#4 == 0x55#8) = true := by decide
/-- V-ALU-7. -/
theorem test_andReg : stepGives ((((placed 0x200#12 0x8012#16).setV 0x0#4 0xF0#8).setV 0x1#4 0x3C#8).setV 0xF#4 0x55#8)
    (fun t => t.getV 0x0#4 == 0x30#8 && t.getV 0xF#4 == 0x55#8) = true := by decide
/-- V-ALU-8. -/
theorem test_xorReg : stepGives ((((placed 0x200#12 0x8013#16).setV 0x0#4 0xF0#8).setV 0x1#4 0x3C#8).setV 0xF#4 0x55#8)
    (fun t => t.getV 0x0#4 == 0xCC#8 && t.getV 0xF#4 == 0x55#8) = true := by decide
/-- V-ALU-10. -/
theorem test_addReg : stepGives (((placed 0x200#12 0x8014#16).setV 0x0#4 0xC8#8).setV 0x1#4 0x64#8)
    (fun t => t.getV 0x0#4 == 0x2C#8 && t.getV 0xF#4 == 0x01#8) = true := by decide
/-- V-ALU-32: destination and source are VF; the flag is written last. -/
theorem test_addReg_flag_last : stepGives ((placed 0x200#12 0x8FF4#16).setV 0xF#4 0x90#8) (fun t => t.getV 0xF#4 == 0x01#8) = true := by decide
/-- V-ALU-13. -/
theorem test_subReg_borrow : stepGives ((((placed 0x200#12 0x8015#16).setV 0x0#4 0x05#8).setV 0x1#4 0x07#8).setV 0xF#4 0x01#8)
    (fun t => t.getV 0x0#4 == 0xFE#8 && t.getV 0xF#4 == 0x00#8) = true := by decide
/-- V-ALU-15: equal operands do not borrow. -/
theorem test_subReg_equal : stepGives (((placed 0x200#12 0x8015#16).setV 0x0#4 0x07#8).setV 0x1#4 0x07#8)
    (fun t => t.getV 0x0#4 == 0x00#8 && t.getV 0xF#4 == 0x01#8) = true := by decide
/-- V-ALU-17: Vy shifted, the flag from Vx (the default of SHR_FLAG_SRC). -/
theorem test_shrReg_flag_set : stepGives (((placed 0x200#12 0x8126#16).setV 0x1#4 0x05#8).setV 0x2#4 0x08#8)
    (fun t => t.getV 0x1#4 == 0x04#8 && t.getV 0xF#4 == 0x01#8) = true := by decide
/-- V-ALU-18 with `SHR_FLAG_SRC = Vy`: the flag from Vy. -/
theorem test_shrReg_flag_from_vy :
    stepGives { ((placed 0x200#12 0x8126#16).setV 0x1#4 0x04#8).setV 0x2#4 0x0B#8 with shrFlagSrc := .vy }
      (fun t => t.getV 0x1#4 == 0x05#8 && t.getV 0xF#4 == 0x01#8) = true := by decide
/-- V-ALU-20: the order of the operands. -/
theorem test_subnReg_borrow : stepGives ((((placed 0x200#12 0x8017#16).setV 0x0#4 0x07#8).setV 0x1#4 0x05#8).setV 0xF#4 0x01#8)
    (fun t => t.getV 0x0#4 == 0xFE#8 && t.getV 0xF#4 == 0x00#8) = true := by decide
/-- V-ALU-33: the old VF is the subtrahend. -/
theorem test_subnReg_into_flag : stepGives (((placed 0x200#12 0x8F17#16).setV 0xF#4 0x02#8).setV 0x1#4 0x02#8)
    (fun t => t.getV 0xF#4 == 0x01#8) = true := by decide
/-- V-ALU-22: Vy has no influence. -/
theorem test_shlReg : stepGives ((((placed 0x200#12 0x801E#16).setV 0x0#4 0x41#8).setV 0x1#4 0xFF#8).setV 0xF#4 0x01#8)
    (fun t => t.getV 0x0#4 == 0x82#8 && t.getV 0xF#4 == 0x00#8) = true := by decide
/-- V-ALU-21. -/
theorem test_shlReg_flag : stepGives ((placed 0x200#12 0x800E#16).setV 0x0#4 0x81#8)
    (fun t => t.getV 0x0#4 == 0x02#8 && t.getV 0xF#4 == 0x01#8) = true := by decide
/-- V-ALU-37. -/
theorem test_rnd : stepGives { placed 0x200#12 0xCFF0#16 with rnd := [0xAB#8] } (fun t => t.getV 0xF#4 == 0xA0#8) = true := by decide
/-- V-IDX-1. -/
theorem test_ldI : stepGives (placed 0x200#12 0xA210#16) (fun t => t.i == 0x210#12) = true := by decide
/-- V-IDX-3. -/
theorem test_addI_overflow : stepGives (((placed 0x200#12 0xF21E#16).setI 0xFF0#12).setV 0x2#4 0x20#8)
    (fun t => t.i == 0x010#12 && t.getV 0xF#4 == 0x01#8) = true := by decide
/-- V-IDX-6: a sum of exactly 0xFFF does not exceed. -/
theorem test_addI_exact : stepGives ((((placed 0x200#12 0xF01E#16).setI 0xF01#12).setV 0x0#4 0xFE#8).setV 0xF#4 0x01#8)
    (fun t => t.i == 0xFFF#12 && t.getV 0xF#4 == 0x00#8) = true := by decide
/-- V-IDX-11. -/
theorem test_ldF : stepGives ((placed 0x200#12 0xF329#16).setV 0x3#4 0x1A#8) (fun t => t.i == 0x032#12) = true := by decide
/-- V-IDX-13. -/
theorem test_ldB : stepGives (((placed 0x200#12 0xF033#16).setV 0x0#4 0x9C#8).setI 0x300#12)
    (fun t => t.readByte 0x300#12 == 0x01#8 && t.readByte 0x301#12 == 0x05#8 && t.readByte 0x302#12 == 0x06#8) = true := by decide
/-- V-IDX-18: the digits wrap past the top. -/
theorem test_ldB_wraps : stepGives (((placed 0x200#12 0xF033#16).setV 0x0#4 0x7B#8).setI 0xFFF#12)
    (fun t => t.readByte 0xFFF#12 == 0x01#8 && t.readByte 0x000#12 == 0x02#8 && t.readByte 0x001#12 == 0x03#8) = true := by decide
/-- V-IDX-19: V3 is not stored, I is kept. -/
theorem test_storeRegs : stepGives ((((((placed 0x200#12 0xF255#16).setV 0x0#4 0x11#8).setV 0x1#4 0x22#8).setV 0x2#4 0x33#8).setV 0x3#4 0x44#8).setI 0x400#12)
    (fun t => t.readByte 0x402#12 == 0x33#8 && t.readByte 0x403#12 == 0x00#8 && t.i == 0x400#12) = true := by decide
/-- V-IDX-21. -/
theorem test_storeRegs_wraps : stepGives ((((placed 0x200#12 0xF155#16).setV 0x0#4 0xAA#8).setV 0x1#4 0xBB#8).setI 0xFFF#12)
    (fun t => t.readByte 0xFFF#12 == 0xAA#8 && t.readByte 0x000#12 == 0xBB#8) = true := by decide
/-- V-IDX-23. -/
theorem test_loadRegs : stepGives ((((placed 0x200#12 0xF265#16).setV 0x3#4 0x99#8).setI 0x300#12).loadBytes 0x300#12 [0x01#8, 0x05#8, 0x06#8, 0xFF#8])
    (fun t => t.getV 0x0#4 == 0x01#8 && t.getV 0x2#4 == 0x06#8 && t.getV 0x3#4 == 0x99#8 && t.i == 0x300#12) = true := by decide
/-- V-IDX-24. -/
theorem test_loadRegs_wraps : stepGives (((placed 0x200#12 0xF165#16).setI 0xFFF#12).loadBytes 0xFFF#12 [0xAA#8, 0xBB#8])
    (fun t => t.getV 0x0#4 == 0xAA#8 && t.getV 0x1#4 == 0xBB#8) = true := by decide
/-- V-DSP-1. -/
theorem test_cls : stepGives ((lit (placed 0x200#12 0x00E0#16) [0, 1000, 2047]).setV 0xF#4 0x01#8)
    (fun t => t.display == clearedDisplay && t.getV 0xF#4 == 0x01#8) = true := by decide
/-- V-DSP-8: `x = 15`, the column is taken before VF is cleared. -/
theorem test_drw_origin_before_clear :
    stepGives (((((placed 0x200#12 0xDF11#16).setV 0xF#4 0x0A#8).setV 0x1#4 0x02#8).setI 0x300#12).writeByte 0x300#12 0x80#8)
      (fun t => t.getV 0xF#4 == 0x00#8 && t.display == setPixel clearedDisplay 138 true) = true := by decide
/-- V-DSP-13: clipped at the right edge, a collision on a drawn cell. -/
theorem test_drw_clip_and_collide :
    stepGives (lit ((((((placed 0x200#12 0xD011#16).setV 0x0#4 0x3E#8).setV 0x1#4 0x1F#8).setI 0x300#12).writeByte 0x300#12 0xFF#8)) [2046])
      (fun t => t.getV 0xF#4 == 0x01#8 && t.display == setPixel clearedDisplay 2047 true) = true := by decide
/-- V-DSP-16: rows clipped at the bottom are not read; the fetch makes its two reads. -/
theorem test_drw_accesses :
    let s := ((placed 0x200#12 0xD015#16).setV 0x1#4 0x1E#8).setI 0x300#12
    s.fetchAccesses ++ s.advancePc.dataAccesses (.drw 0x0#4 0x1#4 0x5#4)
      = [.read 0x200#12, .read 0x201#12, .read 0x300#12, .read 0x301#12] := by decide
/-- V-KEY-3: the low nibble selects the key. -/
theorem test_skp : stepGives (pressing ((placed 0x200#12 0xE09E#16).setV 0x0#4 0x1A#8) [10]) (fun t => t.pc == 0x204#12) = true := by decide
/-- V-KEY-2. -/
theorem test_skp_no_skip : stepGives (pressing ((placed 0x200#12 0xE09E#16).setV 0x0#4 0x05#8) [4, 6]) (fun t => t.pc == 0x202#12) = true := by
  decide
/-- V-KEY-6. -/
theorem test_sknp_no_skip : stepGives (pressing ((placed 0x200#12 0xE0A1#16).setV 0x0#4 0xF5#8) [5]) (fun t => t.pc == 0x202#12) = true := by
  decide
/-- V-KEY-4. -/
theorem test_sknp_skip : stepGives ((placed 0x200#12 0xE0A1#16).setV 0x0#4 0x05#8) (fun t => t.pc == 0x204#12) = true := by decide
/-- V-KEY-7: the lowest key. -/
theorem test_ldVxK : stepGives (pressing ((placed 0x204#12 0xF10A#16).setV 0x1#4 0xEE#8) [7, 10])
    (fun t => t.getV 0x1#4 == 0x07#8 && t.pc == 0x206#12) = true := by decide
/-- V-KEY-8: no key. -/
theorem test_ldVxK_waits : stepGives ((placed 0x204#12 0xF10A#16).setV 0x1#4 0xEE#8)
    (fun t => t.getV 0x1#4 == 0xEE#8 && t.pc == 0x204#12) = true := by decide
/-- V-KEY-13. -/
theorem test_ldVxDt : stepGives ((placed 0x200#12 0xF207#16).setDt 0x02#8) (fun t => t.getV 0x2#4 == 0x02#8) = true := by decide
/-- V-KEY-14. -/
theorem test_ldDtVx : stepGives ((placed 0x200#12 0xF015#16).setV 0x0#4 0x03#8) (fun t => t.dt == 0x03#8 && t.st == 0x00#8) = true := by decide
/-- V-KEY-15. -/
theorem test_ldStVx : stepGives ((placed 0x200#12 0xF418#16).setV 0x4#4 0x10#8) (fun t => t.st == 0x10#8 && t.dt == 0x00#8) = true := by decide
/-- V-UNR-7. -/
theorem test_unrecognized : stepGives (placed 0x200#12 0x5121#16) (fun t => t.pc == 0x202#12 && t.reports == [0x5121#16]) = true := by decide
/-- V-TMR-2 and V-TMR-3: the last slot of a tick counts the timers down, and not below 0. -/
theorem test_tick_end : stepGives ((((placed 0x200#12 0x1200#16).setSlot 10).setDt 0x00#8).setSt 0xFF#8)
    (fun t => t.slot == 0 && t.dt == 0x00#8 && t.st == 0xFE#8) = true := by decide
/-- V-RST-3: a reset in the middle of a tick. -/
theorem test_reset_mid_tick : stepGives ((((placed 0x204#12 0x1204#16).setSlot 2).setDt 0x05#8).setV 0x0#4 0x05#8).hostAssertReset
    (fun t => t.slot == 0 && t.pc == 0x200#12 && t.dt == 0x00#8 && t.getV 0x0#4 == 0x00#8) = true := by decide

/-! ## Witnesses: states and operands that meet the hypotheses of the statements

Each theorem is named after the statement it serves. -/

/-- A state in the middle of everything: PC at the top, slot 9, a listed key frame, bytes in Memory, an old report. -/
def busy : State :=
  { (((placed 0xFFF#12 0xF115#16).setV 0x1#4 0x07#8).setI 0xFFE#12).setSlot 9 with
    sp := 15#4, dt := 0x03#8, st := 0x00#8, keyFrames := [Vector.replicate 16 true], rnd := [0xB7#8, 0x01#8], reports := [0x0123#16],
    started := true }

theorem witness_FirstFetchAfterResetIsAt200 :
    busy.hostAssertReset.resetRequest = true ∧ stepGives busy.hostAssertReset (fun t => t.tickRequest) = true
      ∧ stepGives (State.hostAssertReset { busy with tickRequest := false }) (fun t => !t.tickRequest) = true := by decide

theorem witness_ResetTakenAtAnySlot :
    busy.hostAssertReset.resetRequest = true ∧ busy.hostAssertReset.slot = 9 ∧ busy.hostAssertReset.getV 0x1#4 = 0x07#8 := by decide

theorem witness_EveryStepKeepsTheInvariant : StateInv busy ∧ stepGives busy (fun t => t.slot == 10) = true := by
  refine ⟨⟨by decide, by decide, fun w hw => ?_, fun _ => rfl⟩, by decide⟩
  rw [show busy.reports = [0x0123#16] from rfl, List.mem_singleton] at hw
  subst hw
  decide

theorem witness_StepRunsTheDecodedInstruction :
    busy.running ∧ decodeBytes [busy.readByte busy.pc, busy.readByte (busy.pc + 0x001#12)] = .ok (.ldDtVx 0x1#4, [])
      ∧ State.reset.running ∧ State.reset.slot = 0 := ⟨⟨rfl, by decide⟩, rfl, ⟨rfl, fun _ => rfl⟩, rfl⟩

theorem witness_EndOfSlotCountsOrClosesTheTick :
    busy.slot + 1 < 11 ∧ 11 ≤ (busy.setSlot 10).slot + 1 ∧ (busy.setSlot 10).keyFrames = Vector.replicate 16 true :: [] := by decide

theorem witness_EveryStepCompletes : ∀ k, State.reset.keyPressed k = false := by decide

/-- That a frame is listed: `busy` at slot 0. -/
theorem witness_TickIsElevenStepsThenTheTimers :
    State.reset.slot = 0 ∧ State.reset.running ∧ (busy.setSlot 0).slot = 0 ∧ (busy.setSlot 0).running :=
  ⟨rfl, ⟨rfl, fun _ => rfl⟩, rfl, rfl, fun _ => rfl⟩

theorem witness_KeysAreFrozenWithinATick : stepGives busy (fun t => t.keys == busy.keys) = true ∧ busy.slot + 1 < 11 := by decide

theorem witness_IdleCoreHoldsItsState :
    let s := { State.reset with tickRequest := false }
    s.resetRequest = false ∧ s.slot = 0 ∧ s.tickRequest = false := by decide

/-- DT changes in one state, ST in the other. -/
theorem witness_TimersMoveOnlyByLoadOrTickEnd :
    busy.resetRequest = false ∧ busy.slot + 1 < 11 ∧ stepGives busy (fun t => t.dt != busy.dt) = true
      ∧ stepGives ((placed 0x200#12 0xF418#16).setV 0x4#4 0x10#8) (fun t => t.st != 0x00#8) = true := by decide

theorem witness_DecodeOfEncodeIsTheInstruction :
    (Instr.drw 0xF#4 0xF#4 0x0#4).wellFormed = true ∧ (Instr.unrecognized 0xFFFF#16).wellFormed = true := by decide

theorem witness_DecoderFollowsTheOpcodeMap :
    opcodeRows[0]? = some ⟨"00E0", 0xFFFF#16, 0x00E0#16⟩ ∧ opcodeRows[33]? = some ⟨"Fx65", 0xF0FF#16, 0xF065#16⟩
      ∧ (∀ r ∈ opcodeRows, 0x8128#16 &&& r.mask ≠ r.value) := by decide

theorem witness_SixteenNestedCallsAllReturn : (List.replicate 16 (0x300#12 : Addr)).length ≤ 16 := by decide

/-- Both values of the parameter. -/
theorem witness_ShiftRightTakesVyAndFlagsTheSource :
    State.reset.shrFlagSrc = .vx ∧ (State.shrFlagSrc { State.reset with shrFlagSrc := .vy }) = .vy := by decide

/-- Also for the other instructions with a flag, whose result half asks that `x` is not 15. -/
theorem witness_AddSetsCarry : (0x0#4 : RegIdx) ≠ 0xF#4 ∧ (0xE#4 : RegIdx) ≠ 0xF#4 := by decide

theorem witness_RandomByteIsMasked : busy.rnd = 0xB7#8 :: [0x01#8] ∧ State.reset.rnd = [] ∧ (0x0F#8 : Byte).getLsbD 7 = false := by decide

theorem witness_DecimalDigitsAreStored : (0 : Nat) < 3 ∧ 2 < 3 ∧ (busy.dataAddr 2).toNat = 0 := by decide

/-- Both ends of the range, and parts outside it. -/
theorem witness_StoreRegistersAtIndex :
    (0x0#4 : RegIdx) ≤ 0xF#4 ∧ (0xF#4 : RegIdx) ≤ 0xF#4
      ∧ (∀ r : RegIdx, r ≤ 0x1#4 → StatePart.byte 0x000#12 ≠ .byte (busy.dataAddr r.toNat))
      ∧ (∀ r : RegIdx, r ≤ 0x1#4 → StatePart.index ≠ .byte (busy.dataAddr r.toNat)) := by decide

theorem witness_LoadRegistersFromIndex :
    (0xF#4 : RegIdx) ≤ 0xF#4 ∧ ∀ r : RegIdx, r ≤ 0xE#4 → StatePart.reg 0xF#4 ≠ .reg r := by decide

theorem witness_StoreThenLoadGivesRegistersBack :
    ∃ t, exec (.storeRegs 0xF#4) busy = .next t ∧ t.i = t.i ∧ (∀ a, agreeOn (.byte a) t t) ∧ (0xF#4 : RegIdx) ≤ 0xF#4 :=
  ⟨_, rfl, rfl, fun _ => rfl, by decide⟩

/-- V-IDX-26 one step on: the word stored at 0x202 is fetched there. -/
theorem witness_StoredBytesAreFetchedAtOnce :
    let s := (State.reset.setPc 0x202#12).setI 0x202#12
    ∃ t, exec (.storeRegs 0x1#4) s = .next t ∧ (0x0#4 : RegIdx) < 0x1#4 ∧ t.pc = s.dataAddr (0x0#4 : RegIdx).toNat :=
  ⟨_, rfl, by decide, by decide⟩

/-- Two memories that differ at 0x300 and agree where `F165` at I = 0xFFE reads. -/
theorem witness_OnlyTheBytesReadMatter :
    ∃ t, exec (.loadRegs 0x1#4) busy = .next t
      ∧ (∀ a ∈ readAddrs (.loadRegs 0x1#4) busy, (busy.mem.write 0x300 0x55#8).read a.toNat = busy.readByte a)
      ∧ (busy.mem.write 0x300 0x55#8).read (0x000#12 : Addr).toNat = busy.readByte 0x000#12 := by
  refine ⟨_, rfl, ?_, by decide⟩
  have hread : readAddrs (.loadRegs 0x1#4) busy = [0xFFE#12, 0xFFF#12] := by decide
  simp only [hread, List.forall_mem_cons]
  exact ⟨by decide, by decide, by simp⟩

theorem witness_MemoriesThatReadAlikeAreEqual :
    busy.mem.wf = true ∧ busy.mem ≠ [] ∧ ∀ a, busy.mem.read a = busy.mem.read a := ⟨by decide, by decide, fun _ => rfl⟩

/-- A program of the greatest length, one a byte longer, and an address on either side of a program of one byte. -/
theorem witness_LoadedProgramStandsFrom200 :
    State.reset.slot = 0 ∧ State.reset.started = false ∧ (List.replicate 3584 0x00#8).length ≤ 3584 ∧ 3584 < (List.replicate 3585 0x00#8).length
      ∧ 0 < [0x12#8].length ∧ (0x1FF#12 : Addr).toNat < 0x200 ∧ 0x200 + [0x12#8].length ≤ (0x201#12 : Addr).toNat := by
  simp only [List.length_replicate, List.length_cons, List.length_nil]; decide

theorem witness_DigitAddressIsTheLoadedGlyph : State.reset.slot = 0 ∧ State.reset.started = false ∧ (4 : Nat) < 5 := by decide

/-- A sprite at the corner: V0 = 0x7E, V1 = 0x3F as in V-DSP-2, its first row full. -/
def corner : State := (((State.reset.setV 0x0#4 0x7E#8).setV 0x1#4 0x3F#8).setI 0x210#12).writeByte 0x210#12 0xFF#8

theorem corner_covers : spriteCovers corner 0x0#4 0x1#4 0x2#4 2047 := ⟨0, 1, by decide, by decide, by decide, by decide, by decide, by decide⟩

theorem corner_covers_only (k : Nat) (h : spriteCovers corner 0x0#4 0x1#4 0x2#4 k) : k = 2046 ∨ k = 2047 := by
  obtain ⟨row, col, -, -, hr, hc, -, rfl⟩ := h
  have hy : (corner.getV 0x1#4).toNat % 32 = 31 := by decide
  have hx : (corner.getV 0x0#4).toNat % 64 = 62 := by decide
  omega

/-- A covered cell, an uncovered one, a covered cell that is on, and no covered cell on. -/
theorem witness_DrawInvertsTheSpritesCells :
    spriteCovers corner 0x0#4 0x1#4 0x2#4 2047 ∧ ¬ spriteCovers corner 0x0#4 0x1#4 0x2#4 0
      ∧ (∃ k, spriteCovers (lit corner [2047]) 0x0#4 0x1#4 0x2#4 k ∧ pixel (lit corner [2047]).display k = true)
      ∧ (∀ k, spriteCovers corner 0x0#4 0x1#4 0x2#4 k → pixel corner.display k = false) := by
  refine ⟨corner_covers, fun h => ?_, ⟨2047, corner_covers, by decide⟩, fun k h => ?_⟩
  · rcases corner_covers_only 0 h with h | h <;> omega
  · rcases corner_covers_only k h with rfl | rfl <;> decide

theorem witness_DrawingTwiceRestoresTheDisplay :
    (0x0#4 : RegIdx) ≠ 0xF#4 ∧ (0x1#4 : RegIdx) ≠ 0xF#4
      ∧ ∃ t u, exec (.drw 0x0#4 0x1#4 0x2#4) corner = .next t ∧ exec (.drw 0x0#4 0x1#4 0x2#4) t = .next u :=
  ⟨by decide, by decide, _, _, rfl, rfl⟩

/-- The presented cells of V-DSP-2's first row, and a set top-left bit. -/
theorem witness_SpriteCellsAreOnTheScreen :
    corner.spriteCells 62 31 (List.range 2) = [2046, 2047] ∧ 0 < (0x2#4 : BitVec 4).toNat
      ∧ (corner.readByte corner.i).getLsbD 7 = true := by decide

theorem witness_SkipsTestTheKey :
    (0xA#4 : KeyIdx).toNat = ((State.reset.setV 0x0#4 0x1A#8).getV 0x0#4).toNat % 16
      ∧ (0xF#4 : KeyIdx).toNat = ((State.reset.setV 0x0#4 0xFF#8).getV 0x0#4).toNat % 16 := by decide

/-- The least key is 7, is the first, is the last, and is none. -/
theorem witness_KeyWaitTakesTheLeastKey :
    ((pressing State.reset [7, 10]).keyPressed 0x7#4 = true ∧ ∀ j, j < 0x7#4 → (pressing State.reset [7, 10]).keyPressed j = false)
      ∧ (pressing State.reset [0]).keyPressed 0x0#4 = true
      ∧ ((pressing State.reset [15]).keyPressed 0xF#4 = true ∧ ∀ j, j < 0xF#4 → (pressing State.reset [15]).keyPressed j = false)
      ∧ (∀ k, State.reset.keyPressed k = false) := by decide

/-- V-KEY-12: the wait across the top of the address space. -/
theorem witness_KeyWaitTakesTheLeastKey_as_step :
    let s := placed 0xFFF#12 0xF10A#16
    s.running ∧ decodeWord s.fetchWord = .ldVxK 0x1#4 ∧ ∀ k, s.keyPressed k = false := ⟨⟨rfl, by decide⟩, by decide, by decide⟩

/-- In the last slot of a tick. -/
theorem witness_UnrecognizedIsReportedNoOp :
    let s := (placed 0x200#12 0x5121#16).setSlot 10
    s.running ∧ unrecognizedWord s.fetchWord = true ∧ ¬ s.slot + 1 < 11 := ⟨⟨rfl, by decide⟩, by decide, by decide⟩

/-- `exec` answers a next state of which something holds. -/
def execGives (i : Instr) (s : State) (p : State → Bool) : Bool :=
  match exec i s with
  | .next t => p t
  | .fault _ => false
  | .refused _ => false

theorem witness_WritersOfIndexStackAndTimers :
    execGives (.ldI 0x210#12) busy (fun t => t.i != busy.i) = true ∧ execGives (.call 0x210#12) busy (fun t => t.stack != busy.stack) = true
      ∧ execGives .ret busy (fun t => t.sp != busy.sp) = true ∧ execGives (.ldDtVx 0x1#4) busy (fun t => t.dt != busy.dt) = true
      ∧ execGives (.ldStVx 0x1#4) busy (fun t => t.st != busy.st) = true := by decide

theorem witness_WritersOfMemoryDisplayAndReports :
    execGives (.storeRegs 0x1#4) busy (fun t => t.readByte 0xFFF#12 != busy.readByte 0xFFF#12) = true
      ∧ execGives .cls (lit busy [7]) (fun t => t.display != (lit busy [7]).display) = true
      ∧ execGives (.rnd 0x0#4 0xFF#8) busy (fun t => t.rnd != busy.rnd) = true
      ∧ execGives (.unrecognized 0x0000#16) busy (fun t => t.reports != busy.reports) = true := by decide

theorem witness_WritersOfRegistersAndFlag :
    execGives (.ldImm 0x1#4 0x08#8) busy (fun t => t.getV 0x1#4 != busy.getV 0x1#4) = true
      ∧ execGives (.subReg 0x1#4 0x0#4) busy (fun t => t.getV 0xF#4 != busy.getV 0xF#4) = true := by decide

theorem witness_WritersOfPc : execGives (.jp 0x210#12) busy (fun t => t.pc != busy.pc) = true := by decide

theorem witness_NoStepWritesTheFlagSource :
    stepGives { busy with shrFlagSrc := .vy } (fun t => t.shrFlagSrc == .vy) = true := by decide

/-- The first and the last slot within a tick, and between ticks, before the first of them and later. -/
theorem witness_HostMovesOnlyBetweenTicks :
    (busy.setSlot 1).slot ≠ 0 ∧ (busy.setSlot 10).slot ≠ 0 ∧ State.reset.slot = 0 ∧ (busy.setSlot 0).started = true := by decide

/-- The first slot of the first tick, a reset in a tick, and a later tick. -/
theorem witness_MemoryIsLoadedBeforeTheFirstTickAlone :
    (State.reset.running ∧ stepGives State.reset (fun t => t.slot == 1) = true)
      ∧ (busy.hostAssertReset.started = true ∧ stepGives busy.hostAssertReset (fun t => t.slot == 0) = true)
      ∧ busy.running := ⟨⟨⟨rfl, fun _ => rfl⟩, by decide⟩, ⟨rfl, by decide⟩, rfl, by decide⟩

end Sys2Proof.Tests
end

