-- ==== Sys2Proof/Proofs/Cycle.lean ====
section
/-! PROOFS. The instruction step completes (40_cycle.md): every step, every instruction, and the key-wait that finds no key. -/

namespace Sys2Proof.Proofs.Cycle

open Sys2Proof Sys2Proof.Machine

/-- Fetch's advance of PC does not touch the key levels. -/
@[simp] theorem keyPressed_advancePc (s : State) (k : KeyIdx) : s.advancePc.keyPressed k = s.keyPressed k := rfl

/-- The key-wait's retreat undoes fetch's advance, also across the top of the address space (D3). -/
@[simp] theorem retreatPc_advancePc (s : State) : s.advancePc.retreatPc = s := by
  simp [State.advancePc, State.retreatPc, State.setPc]

/-- A key-wait that finds no key only moves PC back (R142). -/
theorem exec_ldVxK_of_no_key (x : RegIdx) {s : State} (h : ∀ k, s.keyPressed k = false) :
    exec (.ldVxK x) s = .next s.retreatPc := by
  simp [exec, execLdVxK, s.lowestKey_none.mpr h]

/-- A step completes whichever of the three kinds it is: a reset, an idle step or a slot of a tick (R84). -/
theorem step_completes (s : State) : ∃ t, step s = .next t := by
  rcases step_cases s with ⟨-, hreset⟩ | ⟨-, -, -, hidle⟩ | ⟨-, t, -, hslot⟩
  · exact ⟨_, hreset⟩
  · exact ⟨_, hidle⟩
  · exact ⟨_, hslot⟩

/-- The execute part of every instruction completes (R84). -/
theorem exec_completes (i : Instr) (s : State) : ∃ t, exec i s = .next t :=
  (exec_next i s).imp fun _ h => h.1

/-- From the state fetch leaves, a key-wait that finds no key gives back the whole state from before the fetch. -/
theorem exec_ldVxK_advancePc_of_no_key (x : RegIdx) {s : State} (h : ∀ k, s.keyPressed k = false) :
    exec (.ldVxK x) s.advancePc = .next s := by
  rw [exec_ldVxK_of_no_key x (by simpa using h), retreatPc_advancePc]

/-- Settles O7: steps by the three kinds of `step_cases`, instructions by `exec_next`, and the key-wait by the retreat undoing
the advance. -/
theorem everyStepCompletes : Obligations.EveryStepCompletes :=
  ⟨step_completes, exec_completes, fun x s h => ⟨s, exec_ldVxK_advancePc_of_no_key x h, rfl⟩⟩

end Sys2Proof.Proofs.Cycle
end

