-- ==== Sys2Proof/Proofs/ControlFlow.lean ====
section
/-! PROOFS. The jump (41_control_flow.md R91): its word, its meaning, and its frame. -/

namespace Sys2Proof.Proofs.ControlFlow

open Sys2Proof Sys2Proof.Machine

/-- Every word of format A in family 1 is the jump to its address field (R66 row 3). -/
theorem decodeWord_formatA_jp (nnn : Addr) : decodeWord (formatA 0x1#4 nnn) = .jp nnn := by
  simp [decodeWord]

/-- The jump writes its address to PC (R91). -/
theorem exec_jp (nnn : Addr) (s : State) : exec (.jp nnn) s = .next (s.setPc nnn) := rfl

/-- A write of PC changes no other part of the state. -/
theorem changesOnly_setPc (s : State) (a : Addr) : changesOnly [.pc] s (s.setPc a) := by
  intro p hp
  cases p with
  | pc => simp at hp
  | random => exact ⟨s.setPc_rnd a, s.setPc_draws a⟩
  | host => exact ⟨s.setPc_keyFrames a, s.setPc_frames a, s.setPc_tickRequest a, s.setPc_resetRequest a⟩
  | reg | index | sp | entry | dt | st | slot | byte | cell | keypad | reports | shrSource | started => rfl

/-- Settles O18: the word by its format, the meaning by `exec_jp`, the frame by that of a write of PC. -/
theorem jumpSetsPc : Obligations.JumpSetsPc := fun nnn s =>
  ⟨decodeWord_formatA_jp nnn, s.setPc nnn, exec_jp nnn s, s.setPc_pc nnn, changesOnly_setPc s nnn⟩

end Sys2Proof.Proofs.ControlFlow
end

