-- ==== Sys2Proof/Proofs/Alu.lean ====
section
/-! PROOFS. The loads and the flagless add (42_alu.md R100 to R102): their words, their meanings as one register write, and the
frame of a register write. -/

namespace Sys2Proof.Proofs.Alu

open Sys2Proof Sys2Proof.Machine

/-! ## The words (R66) -/

theorem decodeWord_formatXI_ldImm (x : RegIdx) (nn : Byte) : decodeWord (formatXI 0x6#4 x nn) = .ldImm x nn := by
  simp [decodeWord]

theorem decodeWord_formatXI_addImm (x : RegIdx) (nn : Byte) : decodeWord (formatXI 0x7#4 x nn) = .addImm x nn := by
  simp [decodeWord]

/-- Family 8 is selected by the first nibble, and the fourth selects the load among its rows. -/
theorem decodeWord_formatXY_ldReg (x y : RegIdx) : decodeWord (formatXY 0x8#4 x y 0x0#4) = .ldReg x y := by
  simp [decodeWord, decodeFamily8]

/-! ## The meanings -/

theorem exec_ldImm (x : RegIdx) (nn : Byte) (s : State) : exec (.ldImm x nn) s = .next (s.setV x nn) := rfl

theorem exec_ldReg (x y : RegIdx) (s : State) : exec (.ldReg x y) s = .next (s.setV x (s.getV y)) := rfl

theorem exec_addImm (x : RegIdx) (nn : Byte) (s : State) :
    exec (.addImm x nn) s = .next (s.setV x (sum8 (s.getV x) nn)) := rfl

/-- The narrowed sum is the exact sum modulo 256. -/
theorem sum8_toNat (a b : Byte) : (sum8 a b).toNat = (a.toNat + b.toNat) % 256 :=
  BitVec.toNat_ofNat _ 8

/-! ## A register write -/

/-- The register written holds what was written. -/
theorem getV_setV_self (s : State) (x : RegIdx) (b : Byte) : (s.setV x b).getV x = b := by
  rw [State.getV_setV, if_pos rfl]

/-- A write of a register changes no other part of the state, no other register either: VF is a register like any. -/
theorem changesOnly_setV (s : State) (x : RegIdx) (b : Byte) : changesOnly [.reg x] s (s.setV x b) := by
  intro p hp
  cases p with
  | reg r =>
    have hr : r ≠ x := by simpa using hp
    exact (s.getV_setV x b r).trans (if_neg hr)
  | random => exact ⟨s.setV_rnd x b, s.setV_draws x b⟩
  | host => exact ⟨s.setV_keyFrames x b, s.setV_frames x b, s.setV_tickRequest x b, s.setV_resetRequest x b⟩
  | index | pc | sp | entry | dt | st | slot | byte | cell | keypad | reports | shrSource | started => rfl

/-! ## The statements -/

/-- Settles O24: each word by its format, each meaning a write of `x`, read back and framed by the rules of a register write. -/
theorem loadsWriteTheRegister : Obligations.LoadsWriteTheRegister := fun x y nn s =>
  ⟨decodeWord_formatXI_ldImm x nn, decodeWord_formatXY_ldReg x y,
    ⟨s.setV x nn, exec_ldImm x nn s, getV_setV_self s x nn, changesOnly_setV s x nn⟩,
    ⟨s.setV x (s.getV y), exec_ldReg x y s, getV_setV_self s x (s.getV y), changesOnly_setV s x (s.getV y)⟩⟩

/-- Settles O25: the one register written holds the narrowed sum, so VF changes only as the destination. -/
theorem addImmediateWrapsWithoutFlag : Obligations.AddImmediateWrapsWithoutFlag := fun x nn s => by
  have hsum : ((s.setV x (sum8 (s.getV x) nn)).getV x).toNat = ((s.getV x).toNat + nn.toNat) % 256 := by
    rw [getV_setV_self, sum8_toNat]
  exact ⟨decodeWord_formatXI_addImm x nn, s.setV x (sum8 (s.getV x) nn), exec_addImm x nn s, hsum, changesOnly_setV s x _⟩

end Sys2Proof.Proofs.Alu
end

