-- ==== Sys2Proof/Proofs/IndexMemory.lean ====
section
/-! PROOFS. The loads of I and the register transfers at I (43_index_memory.md R120, R122, R124, R125): their words, the addresses and
values they compute, and the frames of a write of I, of stores at I and of a load at I. -/

namespace Sys2Proof.Proofs.IndexMemory

open Sys2Proof Sys2Proof.Machine

/-! ## The words (R66) -/

theorem decodeWord_formatA_ldI (nnn : Addr) : decodeWord (formatA 0xA#4 nnn) = .ldI nnn := by
  simp [decodeWord]

/-- Every word of format X in family F is decoded by that family's sub-opcode. -/
theorem decodeWord_formatX_familyF (x : RegIdx) (sub : Byte) :
    decodeWord (formatX 0xF#4 x sub) = decodeFamilyF (formatX 0xF#4 x sub) := by
  simp [decodeWord]

theorem decodeWord_formatX_ldF (x : RegIdx) : decodeWord (formatX 0xF#4 x 0x29#8) = .ldF x := by
  simp [decodeWord_formatX_familyF, decodeFamilyF]

theorem decodeWord_formatX_storeRegs (x : RegIdx) : decodeWord (formatX 0xF#4 x 0x55#8) = .storeRegs x := by
  simp [decodeWord_formatX_familyF, decodeFamilyF]

theorem decodeWord_formatX_loadRegs (x : RegIdx) : decodeWord (formatX 0xF#4 x 0x65#8) = .loadRegs x := by
  simp [decodeWord_formatX_familyF, decodeFamilyF]

/-! ## The meanings -/

theorem exec_ldI (nnn : Addr) (s : State) : exec (.ldI nnn) s = .next (s.setI nnn) := rfl

theorem exec_ldF (x : RegIdx) (s : State) : exec (.ldF x) s = .next (s.setI (glyphAddr (s.getV x))) := rfl

theorem exec_storeRegs (x : RegIdx) (s : State) : exec (.storeRegs x) s = .next (s.storeAtI (s.rangeCells x)) := rfl

theorem exec_loadRegs (x : RegIdx) (s : State) : exec (.loadRegs x) s = .next (s.loadAtI (regRange x)) := rfl

/-! ## Addresses -/

/-- An effective address as a number: the sum wraps at the top of Memory (R126, R45). -/
theorem dataAddr_toNat (s : State) (k : Nat) : (s.dataAddr k).toNat = (s.i.toNat + k) % 0x1000 := by
  simp [State.dataAddr]

/-- The glyphs are five bytes each, from address 0; no glyph's address reaches the wrap (R122, R46). -/
theorem glyphAddr_toNat (b : Byte) : (glyphAddr b).toNat = 5 * (b.toNat % 16) := by
  have hnibble : (b.extractLsb' 0 4).toNat = b.toNat % 16 := by simp
  simp only [glyphAddr, Config.fontBase, Config.glyphBytes, BitVec.toNat_ofNat, hnibble]
  omega

/-! ## The cells of a register range -/

/-- A stored cell is a register of the range with its index as the offset. -/
theorem mem_rangeCells {s : State} {x : RegIdx} {c : Nat × Byte} :
    c ∈ s.rangeCells x ↔ ∃ r : RegIdx, r ≤ x ∧ (r.toNat, s.getV r) = c := by
  simp only [State.rangeCells, List.mem_map, mem_regRange, BitVec.le_def]

/-- The offsets of the cells are 0 to `x`, ascending. -/
theorem map_fst_rangeCells (s : State) (x : RegIdx) : (s.rangeCells x).map Prod.fst = List.range (x.toNat + 1) := by
  have hoffset : ∀ k ∈ List.range (x.toNat + 1), (BitVec.ofNat 4 k).toNat = k := fun k hk => by
    have := List.mem_range.mp hk
    have := x.isLt
    rw [BitVec.toNat_ofNat]
    omega
  simp only [State.rangeCells, regRange, List.map_map]
  exact (List.map_congr_left hoffset).trans (List.map_id' _)

/-- After the store the byte at I plus a register's index is that register: no later cell of the range overwrites it. -/
theorem readByte_storeAtI_rangeCells (s : State) {x r : RegIdx} (hr : r ≤ x) :
    (s.storeAtI (s.rangeCells x)).readByte (s.dataAddr r.toNat) = s.getV r := by
  have hnodup : ((s.rangeCells x).map Prod.fst).Nodup := map_fst_rangeCells s x ▸ List.nodup_range
  have hsmall : ∀ c ∈ s.rangeCells x, c.1 < 4096 := by
    intro c hc
    obtain ⟨q, -, rfl⟩ := mem_rangeCells.mp hc
    exact Nat.lt_trans q.isLt (by decide)
  exact s.readByte_storeAtI (s.rangeCells x) hnodup hsmall (mem_rangeCells.mpr ⟨r, hr, rfl⟩)

/-- After the load a register of the range is the byte at I plus its index. -/
theorem getV_loadAtI_regRange (s : State) {x r : RegIdx} (hr : r ≤ x) :
    (s.loadAtI (regRange x)).getV r = s.readByte (s.dataAddr r.toNat) := by
  rw [State.getV_loadAtI, if_pos ((mem_regRange x r).mpr hr)]

/-! ## Frames -/

/-- A write of I changes no other part of the state. -/
theorem changesOnly_setI (s : State) (a : Addr) : changesOnly [.index] s (s.setI a) := by
  intro p hp
  cases p with
  | index => simp at hp
  | random => exact ⟨s.setI_rnd a, s.setI_draws a⟩
  | host => exact ⟨s.setI_keyFrames a, s.setI_frames a, s.setI_tickRequest a, s.setI_resetRequest a⟩
  | reg | pc | sp | entry | dt | st | slot | byte | cell | keypad | reports | shrSource | started => rfl

/-- Stores at I change no part but the bytes they address. -/
theorem agreeOn_storeAtI (s : State) (cells : List (Nat × Byte)) {p : StatePart} (h : ∀ c ∈ cells, p ≠ .byte (s.dataAddr c.1)) :
    agreeOn p s (s.storeAtI cells) := by
  cases p with
  | byte a => exact s.readByte_storeAtI_other cells a fun c hc ha => h c hc (congrArg StatePart.byte ha)
  | random => rw [s.storeAtI_eq]; exact ⟨rfl, rfl⟩
  | host => rw [s.storeAtI_eq]; exact ⟨rfl, rfl, rfl, rfl⟩
  | reg | index | pc | sp | entry | dt | st | slot | cell | keypad | reports | shrSource | started => rw [s.storeAtI_eq]; rfl

/-- A load at I changes no part but the registers listed. -/
theorem agreeOn_loadAtI (s : State) (rs : List RegIdx) {p : StatePart} (h : ∀ r ∈ rs, p ≠ .reg r) :
    agreeOn p s (s.loadAtI rs) := by
  cases p with
  | reg q => exact (s.getV_loadAtI rs q).trans (if_neg fun hq => h q hq rfl)
  | random => rw [s.loadAtI_eq]; exact ⟨rfl, rfl⟩
  | host => rw [s.loadAtI_eq]; exact ⟨rfl, rfl, rfl, rfl⟩
  | index | pc | sp | entry | dt | st | slot | byte | cell | keypad | reports | shrSource | started => rw [s.loadAtI_eq]; rfl

/-! ## The statements -/

/-- Settles O36: the bytes by `readByte_storeAtI_rangeCells`, the frame by that of stores at I, whose cells are the range's. -/
theorem storeRegistersAtIndex : Obligations.StoreRegistersAtIndex := fun x s => by
  have hframe : ∀ p, (∀ r : RegIdx, r ≤ x → p ≠ .byte (s.dataAddr r.toNat)) → agreeOn p s (s.storeAtI (s.rangeCells x)) := by
    refine fun p hp => agreeOn_storeAtI s (s.rangeCells x) fun c hc => ?_
    obtain ⟨r, hr, rfl⟩ := mem_rangeCells.mp hc
    exact hp r hr
  exact ⟨decodeWord_formatX_storeRegs x, s.storeAtI (s.rangeCells x), exec_storeRegs x s,
    fun r hr => ⟨readByte_storeAtI_rangeCells s hr, dataAddr_toNat s r.toNat⟩, hframe⟩

/-- Settles O37: the registers by `getV_loadAtI_regRange`, the frame by that of a load at I; VF is loaded like any register. -/
theorem loadRegistersFromIndex : Obligations.LoadRegistersFromIndex := fun x s =>
  ⟨decodeWord_formatX_loadRegs x, s.loadAtI (regRange x), exec_loadRegs x s,
    fun _ hr => ⟨getV_loadAtI_regRange s hr, dataAddr_toNat s _⟩,
    fun _ hp => agreeOn_loadAtI s (regRange x) fun r hr => hp r ((mem_regRange x r).mp hr)⟩

/-- Settles O33: each word by its format, each meaning a write of I, whose value for `Fx29` is `glyphAddr_toNat`. -/
theorem indexLoads : Obligations.IndexLoads := fun nnn x s =>
  ⟨decodeWord_formatA_ldI nnn, decodeWord_formatX_ldF x,
    ⟨s.setI nnn, exec_ldI nnn s, s.setI_i nnn, changesOnly_setI s nnn⟩,
    ⟨s.setI (glyphAddr (s.getV x)), exec_ldF x s, glyphAddr_toNat (s.getV x), changesOnly_setI s _⟩⟩

end Sys2Proof.Proofs.IndexMemory
end

