-- ==== Sys2Proof/Proofs/DisplayClear.lean ====
section
/-! PROOFS. The display clear (44_display.md R130): its word, its meaning, and the frame of a write of Display. -/

namespace Sys2Proof.Proofs.DisplayClear

open Sys2Proof Sys2Proof.Machine

/-- The word of format Z that R66 row 1 gives the clear. -/
theorem decodeWord_cls : decodeWord 0x00E0#16 = .cls := by
  decide

/-- The clear writes the display whose cells are all off (R130). -/
theorem exec_cls (s : State) : exec .cls s = .next (s.setDisplay clearedDisplay) := rfl

/-- A write of Display changes no part but cells: no register either, so VF is kept. -/
theorem agreeOn_setDisplay (s : State) (d : Display) {p : StatePart} (h : ∀ k, p ≠ .cell k) :
    agreeOn p s (s.setDisplay d) := by
  cases p with
  | cell k => exact absurd rfl (h k)
  | random => exact ⟨s.setDisplay_rnd d, s.setDisplay_draws d⟩
  | host => exact ⟨s.setDisplay_keyFrames d, s.setDisplay_frames d, s.setDisplay_tickRequest d, s.setDisplay_resetRequest d⟩
  | reg | index | pc | sp | entry | dt | st | slot | byte | keypad | reports | shrSource | started => rfl

/-- Settles O44: the meaning by `exec_cls`, the cells by `pixel_clearedDisplay`, the frame by that of a write of Display. -/
theorem clearTurnsEveryCellOff : Obligations.ClearTurnsEveryCellOff := fun s =>
  ⟨decodeWord_cls, s.setDisplay clearedDisplay, exec_cls s, pixel_clearedDisplay, fun _ hp => agreeOn_setDisplay s _ hp⟩

end Sys2Proof.Proofs.DisplayClear
end

