-- ==== Sys2Proof/Proofs/KeypadTimers.lean ====
section
/-! PROOFS. The timer transfers (45_keypad_timers.md R143 to R145): their words, their meanings, and the frames of a write of DT and
of a write of ST. -/

namespace Sys2Proof.Proofs.KeypadTimers

open Sys2Proof Sys2Proof.Machine Sys2Proof.Proofs.Alu Sys2Proof.Proofs.IndexMemory

/-! ## The words (R66) -/

theorem decodeWord_formatX_ldVxDt (x : RegIdx) : decodeWord (formatX 0xF#4 x 0x07#8) = .ldVxDt x := by
  simp [decodeWord_formatX_familyF, decodeFamilyF]

theorem decodeWord_formatX_ldDtVx (x : RegIdx) : decodeWord (formatX 0xF#4 x 0x15#8) = .ldDtVx x := by
  simp [decodeWord_formatX_familyF, decodeFamilyF]

theorem decodeWord_formatX_ldStVx (x : RegIdx) : decodeWord (formatX 0xF#4 x 0x18#8) = .ldStVx x := by
  simp [decodeWord_formatX_familyF, decodeFamilyF]

/-! ## The meanings -/

theorem exec_ldVxDt (x : RegIdx) (s : State) : exec (.ldVxDt x) s = .next (s.setV x s.dt) := rfl

theorem exec_ldDtVx (x : RegIdx) (s : State) : exec (.ldDtVx x) s = .next (s.setDt (s.getV x)) := rfl

theorem exec_ldStVx (x : RegIdx) (s : State) : exec (.ldStVx x) s = .next (s.setSt (s.getV x)) := rfl

/-! ## Frames -/

/-- A write of DT changes no other part of the state: ST, the other timer, is kept. -/
theorem changesOnly_setDt (s : State) (b : Byte) : changesOnly [.dt] s (s.setDt b) := by
  intro p hp
  cases p with
  | dt => simp at hp
  | random => exact ⟨s.setDt_rnd b, s.setDt_draws b⟩
  | host => exact ⟨s.setDt_keyFrames b, s.setDt_frames b, s.setDt_tickRequest b, s.setDt_resetRequest b⟩
  | reg | index | pc | sp | entry | st | slot | byte | cell | keypad | reports | shrSource | started => rfl

/-- A write of ST changes no other part of the state: DT, the other timer, is kept. -/
theorem changesOnly_setSt (s : State) (b : Byte) : changesOnly [.st] s (s.setSt b) := by
  intro p hp
  cases p with
  | st => simp at hp
  | random => exact ⟨s.setSt_rnd b, s.setSt_draws b⟩
  | host => exact ⟨s.setSt_keyFrames b, s.setSt_frames b, s.setSt_tickRequest b, s.setSt_resetRequest b⟩
  | reg | index | pc | sp | entry | dt | slot | byte | cell | keypad | reports | shrSource | started => rfl

/-! ## The statement -/

/-- Settles O50: each word by its format, each meaning one write, of a register, of DT or of ST, read back and framed by the rules
of that write. -/
theorem timerTransfers : Obligations.TimerTransfers := fun x s =>
  ⟨decodeWord_formatX_ldVxDt x, decodeWord_formatX_ldDtVx x, decodeWord_formatX_ldStVx x,
    ⟨s.setV x s.dt, exec_ldVxDt x s, getV_setV_self s x s.dt, changesOnly_setV s x s.dt⟩,
    ⟨s.setDt (s.getV x), exec_ldDtVx x s, s.setDt_dt (s.getV x), changesOnly_setDt s (s.getV x)⟩,
    ⟨s.setSt (s.getV x), exec_ldStVx x s, s.setSt_st (s.getV x), changesOnly_setSt s (s.getV x)⟩⟩

end Sys2Proof.Proofs.KeypadTimers
end

