-- ==== Sys2Proof/Proofs/Reset.lean ====
section
/-! PROOFS. The step after a reset (70_reset_and_hazards.md R173): which of its three kinds a step is, and the fetch at the reset
vector. -/

namespace Sys2Proof.Proofs.Reset

open Sys2Proof Sys2Proof.Machine

/-! ## The kind of a step -/

/-- Asserted reset is taken, whatever the slot (R172). -/
theorem step_of_resetRequest {s : State} (h : s.resetRequest = true) : step s = .next s.takeReset := by
  rcases step_cases s with ⟨-, hreset⟩ | ⟨hreleased, -⟩ | ⟨⟨hreleased, -⟩, -⟩
  · exact hreset
  · simp [h] at hreleased
  · simp [h] at hreleased

/-- Between ticks with no request the core holds its state (R87). -/
theorem step_of_idle {s : State} (hreleased : s.resetRequest = false) (hslot : s.slot = 0)
    (hrequest : s.tickRequest = false) : step s = .next s := by
  rcases step_cases s with ⟨hreset, -⟩ | ⟨-, -, -, hidle⟩ | ⟨⟨-, hrun⟩, -⟩
  · simp [hreleased] at hreset
  · exact hidle
  · simp [hrun hslot] at hrequest

/-- A running machine executes the word it fetches, from the state with PC advanced, and ends the slot (R80, R85). -/
theorem step_of_running {s : State} (h : s.running) :
    ∃ t, exec (decodeWord s.fetchWord) s.advancePc = .next t ∧ step s = .next t.endSlot := by
  obtain ⟨hreleased, hrun⟩ := h
  rcases step_cases s with ⟨hreset, -⟩ | ⟨-, hslot, hrequest, -⟩ | ⟨-, hexec⟩
  · simp [hreleased] at hreset
  · simp [hrun hslot] at hrequest
  · exact hexec

/-! ## The state reset leaves -/

/-- Reset has already released its input, so a release after it changes nothing (log entry 4). -/
theorem takeReset_released (s : State) : { s.takeReset with resetRequest := false } = s.takeReset := rfl

/-- The fetch after a reset reads the reset vector, in the Memory reset kept (R171, R173). -/
theorem fetchWord_takeReset (s : State) :
    s.takeReset.fetchWord = wordOfBytes (s.readByte 0x200#12) (s.readByte 0x201#12) := by
  simp [State.fetchWord, Config.resetPc]

/-- The advance of the first fetch leaves PC just past the word at the reset vector (R81). -/
theorem advancePc_takeReset (s : State) : s.takeReset.advancePc = s.takeReset.setPc 0x202#12 := by
  simp [State.advancePc, Config.resetPc]

/-- After a reset the machine runs once a tick is requested (R173). -/
theorem running_takeReset {s : State} (h : s.tickRequest = true) : s.takeReset.running :=
  ⟨s.takeReset_resetRequest, fun _ => h⟩

/-- Settles O1: the step takes the reset; the state it leaves is idle until a tick is requested, and then runs from the reset
vector. -/
theorem firstFetchAfterResetIsAt200 : Obligations.FirstFetchAfterResetIsAt200 := by
  intro s h
  refine ⟨s.takeReset, step_of_resetRequest h, fetchWord_takeReset s, ?_⟩
  rintro _ rfl
  rw [takeReset_released, ← advancePc_takeReset]
  exact ⟨fun hno => step_of_idle s.takeReset_resetRequest s.takeReset_slot hno,
    fun htick => step_of_running (running_takeReset htick)⟩

end Sys2Proof.Proofs.Reset
end

