-- ==== Sys2Proof/Proofs/Encoding.lean ====
section
/-! PROOFS. The decoder and the encoder against each other and against the opcode map (30_encoding.md): a word is rebuilt from its
fields, so the encoder undoes each branch of the decoder; the other direction, the rows and the catch-all follow. -/

namespace Sys2Proof.Proofs.Encoding

open Sys2Proof Sys2Proof.Machine

/-! ## A word rebuilt from its fields (R61, R62) -/

theorem formatA_fields (w : Word) : formatA (fieldOp w) (fieldNnn w) = w :=
  BitVec.eq_of_toNat_eq (by rw [formatA_toNat, fieldOp_toNat, fieldNnn_toNat]; omega)

theorem formatXI_fields (w : Word) : formatXI (fieldOp w) (fieldX w) (fieldNn w) = w :=
  BitVec.eq_of_toNat_eq (by rw [formatXI_toNat, fieldOp_toNat, fieldX_toNat, fieldNn_toNat]; omega)

theorem formatXY_fields (w : Word) : formatXY (fieldOp w) (fieldX w) (fieldY w) (fieldN w) = w :=
  BitVec.eq_of_toNat_eq (by rw [formatXY_toNat, fieldOp_toNat, fieldX_toNat, fieldY_toNat, fieldN_toNat]; omega)

theorem formatX_fields (w : Word) : formatX (fieldOp w) (fieldX w) (fieldNn w) = w := formatXI_fields w

/-- The nibble that is none of the first fifteen families is the last, F. -/
theorem fieldOp_eq_F : ∀ op : BitVec 4, op ≠ 0x0#4 → op ≠ 0x1#4 → op ≠ 0x2#4 → op ≠ 0x3#4 → op ≠ 0x4#4 → op ≠ 0x5#4 → op ≠ 0x6#4 →
    op ≠ 0x7#4 → op ≠ 0x8#4 → op ≠ 0x9#4 → op ≠ 0xA#4 → op ≠ 0xB#4 → op ≠ 0xC#4 → op ≠ 0xD#4 → op ≠ 0xE#4 → op = 0xF#4 := by
  bv_omega

/-- The fourth nibbles to which family 8 gives no operation are 8 to D and F. -/
theorem family8_nibble_of_ne : ∀ n : BitVec 4, n ≠ 0x0#4 → n ≠ 0x1#4 → n ≠ 0x2#4 → n ≠ 0x3#4 → n ≠ 0x4#4 → n ≠ 0x5#4 → n ≠ 0x6#4 →
    n ≠ 0x7#4 → n ≠ 0xE#4 →
    (n == 0x8#4 || n == 0x9#4 || n == 0xA#4 || n == 0xB#4 || n == 0xC#4 || n == 0xD#4 || n == 0xF#4) = true := by
  simp only [Bool.or_eq_true, beq_iff_eq]
  bv_omega

/-! ## What the decoder gives is well formed and encodes to the word -/

/-- An instruction is the decoding of a word in every respect the encoder knows: it encodes to the word, and it is well formed. -/
def IsDecodingOf (w : Word) (i : Instr) : Prop := encode i = w ∧ i.wellFormed = true

/-- A word of the family table is the encoding of its own catch-all term. -/
theorem isDecodingOf_unrecognized {w : Word} (h : unrecognizedWord w = true) : IsDecodingOf w (.unrecognized w) := ⟨rfl, h⟩

theorem unrecognizedWord_eq (w : Word) : unrecognizedWord w =
    ((fieldOp w == 0x0#4 && w != 0x00E0#16 && w != 0x00EE#16)
    || (fieldOp w == 0x5#4 && fieldN w != 0x0#4)
    || (fieldOp w == 0x8#4 && (fieldN w == 0x8#4 || fieldN w == 0x9#4 || fieldN w == 0xA#4 || fieldN w == 0xB#4 || fieldN w == 0xC#4
        || fieldN w == 0xD#4 || fieldN w == 0xF#4))
    || (fieldOp w == 0x9#4 && fieldN w != 0x0#4)
    || (fieldOp w == 0xE#4 && fieldNn w != 0x9E#8 && fieldNn w != 0xA1#8)
    || (fieldOp w == 0xF#4 && fieldNn w != 0x07#8 && fieldNn w != 0x0A#8 && fieldNn w != 0x15#8 && fieldNn w != 0x18#8
        && fieldNn w != 0x1E#8 && fieldNn w != 0x29#8 && fieldNn w != 0x33#8 && fieldNn w != 0x55#8 && fieldNn w != 0x65#8)) := rfl

section
variable {w : Word}

/-- A branch of the decoder. -/
theorem isDecodingOf_ite {c : Prop} [Decidable c] {i j : Instr} (hi : c → IsDecodingOf w i) (hj : ¬ c → IsDecodingOf w j) :
    IsDecodingOf w (if c then i else j) := by
  split
  · exact hi ‹_›
  · exact hj ‹_›

theorem isDecodingOf_decodeFamily0 (hop : fieldOp w = 0x0#4) : IsDecodingOf w (decodeFamily0 w) :=
  isDecodingOf_ite (fun h => ⟨h.symm, rfl⟩) fun h0 =>
  isDecodingOf_ite (fun h => ⟨h.symm, rfl⟩) fun hE =>
  isDecodingOf_unrecognized (by simp [unrecognizedWord_eq, hop, h0, hE])

theorem isDecodingOf_decodeFamily5 (hop : fieldOp w = 0x5#4) : IsDecodingOf w (decodeFamily5 w) :=
  isDecodingOf_ite (fun h => ⟨by rw [encode, ← hop, ← h, formatXY_fields], rfl⟩) fun hn =>
  isDecodingOf_unrecognized (by simp [unrecognizedWord_eq, hop, hn])

theorem isDecodingOf_decodeFamily8 (hop : fieldOp w = 0x8#4) : IsDecodingOf w (decodeFamily8 w) := by
  have hword : ∀ {n}, fieldN w = n → formatXY 0x8#4 (fieldX w) (fieldY w) n = w := by
    rintro _ rfl; rw [← hop, formatXY_fields]
  refine isDecodingOf_ite (fun h => ⟨hword h, rfl⟩) fun h0 => ?_
  refine isDecodingOf_ite (fun h => ⟨hword h, rfl⟩) fun h1 => ?_
  refine isDecodingOf_ite (fun h => ⟨hword h, rfl⟩) fun h2 => ?_
  refine isDecodingOf_ite (fun h => ⟨hword h, rfl⟩) fun h3 => ?_
  refine isDecodingOf_ite (fun h => ⟨hword h, rfl⟩) fun h4 => ?_
  refine isDecodingOf_ite (fun h => ⟨hword h, rfl⟩) fun h5 => ?_
  refine isDecodingOf_ite (fun h => ⟨hword h, rfl⟩) fun h6 => ?_
  refine isDecodingOf_ite (fun h => ⟨hword h, rfl⟩) fun h7 => ?_
  refine isDecodingOf_ite (fun h => ⟨hword h, rfl⟩) fun hE => ?_
  refine isDecodingOf_unrecognized ?_
  rw [unrecognizedWord_eq, family8_nibble_of_ne _ h0 h1 h2 h3 h4 h5 h6 h7 hE]
  simp [hop]

theorem isDecodingOf_decodeFamily9 (hop : fieldOp w = 0x9#4) : IsDecodingOf w (decodeFamily9 w) :=
  isDecodingOf_ite (fun h => ⟨by rw [encode, ← hop, ← h, formatXY_fields], rfl⟩) fun hn =>
  isDecodingOf_unrecognized (by simp [unrecognizedWord_eq, hop, hn])

theorem isDecodingOf_decodeFamilyE (hop : fieldOp w = 0xE#4) : IsDecodingOf w (decodeFamilyE w) := by
  have hword : ∀ {nn}, fieldNn w = nn → formatX 0xE#4 (fieldX w) nn = w := by
    rintro _ rfl; rw [← hop, formatX_fields]
  exact isDecodingOf_ite (fun h => ⟨hword h, rfl⟩) fun h9E =>
    isDecodingOf_ite (fun h => ⟨hword h, rfl⟩) fun hA1 =>
    isDecodingOf_unrecognized (by simp [unrecognizedWord_eq, hop, h9E, hA1])

theorem isDecodingOf_decodeFamilyF (hop : fieldOp w = 0xF#4) : IsDecodingOf w (decodeFamilyF w) := by
  have hword : ∀ {nn}, fieldNn w = nn → formatX 0xF#4 (fieldX w) nn = w := by
    rintro _ rfl; rw [← hop, formatX_fields]
  refine isDecodingOf_ite (fun h => ⟨hword h, rfl⟩) fun h07 => ?_
  refine isDecodingOf_ite (fun h => ⟨hword h, rfl⟩) fun h0A => ?_
  refine isDecodingOf_ite (fun h => ⟨hword h, rfl⟩) fun h15 => ?_
  refine isDecodingOf_ite (fun h => ⟨hword h, rfl⟩) fun h18 => ?_
  refine isDecodingOf_ite (fun h => ⟨hword h, rfl⟩) fun h1E => ?_
  refine isDecodingOf_ite (fun h => ⟨hword h, rfl⟩) fun h29 => ?_
  refine isDecodingOf_ite (fun h => ⟨hword h, rfl⟩) fun h33 => ?_
  refine isDecodingOf_ite (fun h => ⟨hword h, rfl⟩) fun h55 => ?_
  refine isDecodingOf_ite (fun h => ⟨hword h, rfl⟩) fun h65 => ?_
  exact isDecodingOf_unrecognized (by simp [unrecognizedWord_eq, hop, h07, h0A, h15, h18, h1E, h29, h33, h55, h65])

end

/-- The decoder's answer encodes to the word and is well formed, family by family. -/
theorem isDecodingOf_decodeWord (w : Word) : IsDecodingOf w (decodeWord w) := by
  have hA : ∀ {op}, fieldOp w = op → formatA op (fieldNnn w) = w := by rintro _ rfl; exact formatA_fields w
  have hXI : ∀ {op}, fieldOp w = op → formatXI op (fieldX w) (fieldNn w) = w := by rintro _ rfl; exact formatXI_fields w
  have hXY : ∀ {op}, fieldOp w = op → formatXY op (fieldX w) (fieldY w) (fieldN w) = w := by
    rintro _ rfl; exact formatXY_fields w
  refine isDecodingOf_ite isDecodingOf_decodeFamily0 fun h0 => ?_
  refine isDecodingOf_ite (fun h => ⟨hA h, rfl⟩) fun h1 => ?_
  refine isDecodingOf_ite (fun h => ⟨hA h, rfl⟩) fun h2 => ?_
  refine isDecodingOf_ite (fun h => ⟨hXI h, rfl⟩) fun h3 => ?_
  refine isDecodingOf_ite (fun h => ⟨hXI h, rfl⟩) fun h4 => ?_
  refine isDecodingOf_ite isDecodingOf_decodeFamily5 fun h5 => ?_
  refine isDecodingOf_ite (fun h => ⟨hXI h, rfl⟩) fun h6 => ?_
  refine isDecodingOf_ite (fun h => ⟨hXI h, rfl⟩) fun h7 => ?_
  refine isDecodingOf_ite isDecodingOf_decodeFamily8 fun h8 => ?_
  refine isDecodingOf_ite isDecodingOf_decodeFamily9 fun h9 => ?_
  refine isDecodingOf_ite (fun h => ⟨hA h, rfl⟩) fun hAop => ?_
  refine isDecodingOf_ite (fun h => ⟨hA h, rfl⟩) fun hB => ?_
  refine isDecodingOf_ite (fun h => ⟨hXI h, rfl⟩) fun hC => ?_
  refine isDecodingOf_ite (fun h => ⟨hXY h, rfl⟩) fun hD => ?_
  refine isDecodingOf_ite isDecodingOf_decodeFamilyE fun hE => ?_
  exact isDecodingOf_decodeFamilyF (fieldOp_eq_F _ h0 h1 h2 h3 h4 h5 h6 h7 h8 h9 hAop hB hC hD hE)

@[simp] theorem encode_decodeWord (w : Word) : encode (decodeWord w) = w := (isDecodingOf_decodeWord w).1

@[simp] theorem wellFormed_decodeWord (w : Word) : (decodeWord w).wellFormed = true := (isDecodingOf_decodeWord w).2

/-- Settles O14: by `isDecodingOf_decodeWord`, the case split along the decoder's families. -/
theorem encodeOfDecodeIsTheWord : Obligations.EncodeOfDecodeIsTheWord := isDecodingOf_decodeWord

/-! ## The words of the catch-all (R70) -/

/-- What the decoder calls unrecognized carries the word itself, a word of the family table. -/
theorem unrecognizedWord_of_decodeWord {w v : Word} (h : decodeWord w = .unrecognized v) : v = w ∧ unrecognizedWord v = true := by
  have henc := encode_decodeWord w
  have hwf := wellFormed_decodeWord w
  rw [h] at henc hwf
  exact ⟨henc, hwf⟩

/-- A word of the family table falls through every branch of its family. -/
theorem decodeWord_of_unrecognizedWord {w : Word} (h : unrecognizedWord w = true) : decodeWord w = .unrecognized w := by
  simp only [unrecognizedWord_eq, Bool.or_eq_true, Bool.and_eq_true, beq_iff_eq, bne_iff_ne, ne_eq] at h
  rcases h with ((((⟨⟨hop, h0⟩, hE⟩ | ⟨hop, hn⟩) | ⟨hop, hn⟩) | ⟨hop, hn⟩) | ⟨⟨hop, h9E⟩, hA1⟩) | hF
  · simp [decodeWord, hop, decodeFamily0, h0, hE]
  · simp [decodeWord, hop, decodeFamily5, hn]
  · rcases hn with (((((hn | hn) | hn) | hn) | hn) | hn) | hn <;> simp [decodeWord, hop, decodeFamily8, hn]
  · simp [decodeWord, hop, decodeFamily9, hn]
  · simp [decodeWord, hop, decodeFamilyE, h9E, hA1]
  · simp [decodeWord, hF, decodeFamilyF]

/-- Settles O16: the table's words fall through their families, and the catch-all's answer is well formed. -/
theorem unrecognizedWordsAreTheTablesWords : Obligations.UnrecognizedWordsAreTheTablesWords := fun _ =>
  ⟨fun h => (unrecognizedWord_of_decodeWord h).2, decodeWord_of_unrecognizedWord⟩

/-! ## Decoding an encoded instruction -/

/-- The decoder reads each format's fields back and selects the instruction by its family and fourth nibble or sub-opcode. -/
theorem decodeWord_encode {i : Instr} (h : i.wellFormed = true) : decodeWord (encode i) = i := by
  cases i with
  | unrecognized w => exact decodeWord_of_unrecognizedWord h
  | cls | ret => decide
  | jp | call | seImm | sneImm | ldImm | addImm | ldI | jpV0 | rnd | drw => simp [encode, decodeWord]
  | seReg => simp [encode, decodeWord, decodeFamily5]
  | ldReg | orReg | andReg | xorReg | addReg | subReg | shrReg | subnReg | shlReg => simp [encode, decodeWord, decodeFamily8]
  | sneReg => simp [encode, decodeWord, decodeFamily9]
  | skp | sknp => simp [encode, decodeWord, decodeFamilyE]
  | ldVxDt | ldVxK | ldDtVx | ldStVx | addI | ldF | ldB | storeRegs | loadRegs => simp [encode, decodeWord, decodeFamilyF]

/-- The two bytes of an instruction are read as its word, whatever follows them (R42, R60). -/
theorem decodeBytes_encodeBytes (i : Instr) (rest : List Byte) :
    decodeBytes (encodeBytes i ++ rest) = .ok (decodeWord (encode i), rest) := by
  simp [encodeBytes, decodeBytes]

/-- Settles O13: each constructor's format gives its fields back, and its bytes give its word back. -/
theorem decodeOfEncodeIsTheInstruction : Obligations.DecodeOfEncodeIsTheInstruction := fun i h =>
  ⟨decodeWord_encode h, fun rest => by rw [decodeBytes_encodeBytes, decodeWord_encode h]⟩

/-! ## The rows of the opcode map (R66) -/

/-- The word of every instruction matches the row of its number. -/
theorem rowMatch (i : Instr) : Laws.RowMatch.Statement i := by
  cases i with
  | cls => exact Laws.RowMatch.cls
  | ret => exact Laws.RowMatch.ret
  | jp nnn => exact Laws.RowMatch.jp nnn
  | call nnn => exact Laws.RowMatch.call nnn
  | seImm x nn => exact Laws.RowMatch.seImm x nn
  | sneImm x nn => exact Laws.RowMatch.sneImm x nn
  | seReg x y => exact Laws.RowMatch.seReg x y
  | ldImm x nn => exact Laws.RowMatch.ldImm x nn
  | addImm x nn => exact Laws.RowMatch.addImm x nn
  | ldReg x y => exact Laws.RowMatch.ldReg x y
  | orReg x y => exact Laws.RowMatch.orReg x y
  | andReg x y => exact Laws.RowMatch.andReg x y
  | xorReg x y => exact Laws.RowMatch.xorReg x y
  | addReg x y => exact Laws.RowMatch.addReg x y
  | subReg x y => exact Laws.RowMatch.subReg x y
  | shrReg x y => exact Laws.RowMatch.shrReg x y
  | subnReg x y => exact Laws.RowMatch.subnReg x y
  | shlReg x y => exact Laws.RowMatch.shlReg x y
  | sneReg x y => exact Laws.RowMatch.sneReg x y
  | ldI nnn => exact Laws.RowMatch.ldI nnn
  | jpV0 nnn => exact Laws.RowMatch.jpV0 nnn
  | rnd x nn => exact Laws.RowMatch.rnd x nn
  | drw x y n => exact Laws.RowMatch.drw x y n
  | skp x => exact Laws.RowMatch.skp x
  | sknp x => exact Laws.RowMatch.sknp x
  | ldVxDt x => exact Laws.RowMatch.ldVxDt x
  | ldVxK x => exact Laws.RowMatch.ldVxK x
  | ldDtVx x => exact Laws.RowMatch.ldDtVx x
  | ldStVx x => exact Laws.RowMatch.ldStVx x
  | addI x => exact Laws.RowMatch.addI x
  | ldF x => exact Laws.RowMatch.ldF x
  | ldB x => exact Laws.RowMatch.ldB x
  | storeRegs x => exact Laws.RowMatch.storeRegs x
  | loadRegs x => exact Laws.RowMatch.loadRegs x
  | unrecognized w => exact Laws.RowMatch.unrecognized w

/-- A word matches the row of the instruction it decodes to. -/
theorem matches_of_rowNumber {w : Word} {k : Nat} {r : OpcodeRow} (hr : opcodeRows[k]? = some r)
    (h : (decodeWord w).rowNumber = k + 1) : w &&& r.mask = r.value := by
  have hsel := rowMatch (decodeWord w) r (by simpa [h] using hr)
  simpa [OpcodeRow.selects] using hsel

section
variable {w v : Word}

/-- Outside families 0, 5, 8, 9, E and F the first nibble selects the row. -/
theorem rowNumber_eq_of_op (hop : fieldOp w = fieldOp v)
    (hfamily : fieldOp v ∈ [0x1#4, 0x2#4, 0x3#4, 0x4#4, 0x6#4, 0x7#4, 0xA#4, 0xB#4, 0xC#4, 0xD#4]) :
    (decodeWord w).rowNumber = (decodeWord v).rowNumber := by
  simp only [List.mem_cons, List.not_mem_nil, or_false] at hfamily
  rcases hfamily with h | h | h | h | h | h | h | h | h | h <;> simp [decodeWord, hop, h, Instr.rowNumber]

/-- In families 5, 8 and 9 the fourth nibble selects the row. -/
theorem rowNumber_eq_of_op_n (hop : fieldOp w = fieldOp v) (hn : fieldN w = fieldN v)
    (hfamily : fieldOp v ∈ [0x5#4, 0x8#4, 0x9#4]) : (decodeWord w).rowNumber = (decodeWord v).rowNumber := by
  simp only [List.mem_cons, List.not_mem_nil, or_false] at hfamily
  rcases hfamily with h | h | h
  · simp [decodeWord, hop, h, decodeFamily5, hn, apply_ite Instr.rowNumber]; rfl
  · simp [decodeWord, hop, h, decodeFamily8, hn, apply_ite Instr.rowNumber]; rfl
  · simp [decodeWord, hop, h, decodeFamily9, hn, apply_ite Instr.rowNumber]; rfl

/-- In families E and F the low byte selects the row. -/
theorem rowNumber_eq_of_op_nn (hop : fieldOp w = fieldOp v) (hnn : fieldNn w = fieldNn v)
    (hfamily : fieldOp v ∈ [0xE#4, 0xF#4]) : (decodeWord w).rowNumber = (decodeWord v).rowNumber := by
  simp only [List.mem_cons, List.not_mem_nil, or_false] at hfamily
  rcases hfamily with h | h
  · simp [decodeWord, hop, h, decodeFamilyE, hnn, apply_ite Instr.rowNumber]; rfl
  · simp [decodeWord, hop, h, decodeFamilyF, hnn, apply_ite Instr.rowNumber]; rfl

end

/-- Each row fixes the bits that select within its family. -/
theorem mask_of_mem_opcodeRows : ∀ r ∈ opcodeRows, r.mask = 0xFFFF#16
    ∨ (r.mask = 0xF000#16 ∧ fieldOp r.value ∈ [0x1#4, 0x2#4, 0x3#4, 0x4#4, 0x6#4, 0x7#4, 0xA#4, 0xB#4, 0xC#4, 0xD#4])
    ∨ (r.mask = 0xF00F#16 ∧ fieldOp r.value ∈ [0x5#4, 0x8#4, 0x9#4])
    ∨ (r.mask = 0xF0FF#16 ∧ fieldOp r.value ∈ [0xE#4, 0xF#4]) := by
  decide

/-- A word that matches a row is decoded to the row's number, as the row's own value is. -/
theorem rowNumber_eq_of_matches {w : Word} {r : OpcodeRow} (hr : r ∈ opcodeRows) (h : w &&& r.mask = r.value) :
    (decodeWord w).rowNumber = (decodeWord r.value).rowNumber := by
  rcases mask_of_mem_opcodeRows r hr with hm | ⟨hm, hf⟩ | ⟨hm, hf⟩ | ⟨hm, hf⟩ <;> rw [hm] at h
  · rw [← h, show (0xFFFF#16 : Word) = BitVec.allOnes 16 from rfl, BitVec.and_allOnes]
  · rw [and_F000] at h
    exact rowNumber_eq_of_op (by rw [← h]; simp) hf
  · rw [and_F00F] at h
    exact rowNumber_eq_of_op_n (by rw [← h]; simp) (by rw [← h]; simp) hf
  · rw [and_F0FF] at h
    exact rowNumber_eq_of_op_nn (by rw [← h]; simp) (by rw [← h]; simp) hf

/-- The rows' own values are decoded to the rows' numbers, 1 to 34 in order. -/
theorem rowNumber_opcodeRows : opcodeRows.map (fun r => (decodeWord r.value).rowNumber) = List.range' 1 34 := by
  decide

theorem rowNumber_of_matches {w : Word} {k : Nat} {r : OpcodeRow} (hr : opcodeRows[k]? = some r) (h : w &&& r.mask = r.value) :
    (decodeWord w).rowNumber = k + 1 := by
  have hk : k < 34 := (List.getElem?_eq_some_iff.mp hr).1
  have hnum := congrArg (·[k]?) rowNumber_opcodeRows
  simp only [List.getElem?_map, hr, Option.map_some, List.getElem?_range' hk, Option.some.injEq] at hnum
  rw [rowNumber_eq_of_matches (List.mem_of_getElem? hr) h, hnum]
  omega

/-- The row numbers are 1 to 35, and 35 is the catch-all's alone. -/
theorem rowNumber_cases (i : Instr) : (∃ w, i = .unrecognized w) ∨ (1 ≤ i.rowNumber ∧ i.rowNumber ≤ 34) := by
  cases i with
  | unrecognized w => exact .inl ⟨w, rfl⟩
  | _ => exact .inr (by simp [Instr.rowNumber])

/-- Settles O15: a word matches the row of its decoding and no other; the catch-all is what is decoded to no row. -/
theorem decoderFollowsTheOpcodeMap : Obligations.DecoderFollowsTheOpcodeMap := by
  intro w
  refine ⟨fun k r hr => ⟨rowNumber_of_matches hr, matches_of_rowNumber hr⟩, fun hnone => ?_, fun h r hr hmatch => ?_⟩
  · rcases rowNumber_cases (decodeWord w) with ⟨v, hv⟩ | ⟨hlow, hhigh⟩
    · rw [hv, (unrecognizedWord_of_decodeWord hv).1]
    · have hk : (decodeWord w).rowNumber - 1 < opcodeRows.length := by
        have : opcodeRows.length = 34 := rfl
        omega
      exact absurd (matches_of_rowNumber (List.getElem?_eq_getElem hk) (by omega)) (hnone _ (List.getElem_mem hk))
  · obtain ⟨k, hk, rfl⟩ := List.getElem_of_mem hr
    have hnum := rowNumber_of_matches (List.getElem?_eq_getElem hk) hmatch
    have : opcodeRows.length = 34 := rfl
    rw [h, Instr.rowNumber] at hnum
    omega

/-- Settles O17: closed computations of the decoder. -/
theorem sampleWordsDecodeAsTheirPatterns : Obligations.SampleWordsDecodeAsTheirPatterns := by
  unfold Obligations.SampleWordsDecodeAsTheirPatterns
  decide

end Sys2Proof.Proofs.Encoding
end

