-- ==== Sys2Proof/Proofs/Frames.lean ====
section
/-! PROOFS. Frames: how `changesOnly` composes, and the frame of each operation over the state that the instructions and the end of a
slot are made of. -/

namespace Sys2Proof.Proofs.Frames

open Sys2Proof Sys2Proof.Machine Sys2Proof.Proofs.ControlFlow Sys2Proof.Proofs.Alu

/-! ## Agreement and its composition -/

theorem agreeOn_refl (p : StatePart) (s : State) : agreeOn p s s := by
  cases p with
  | random => exact ⟨rfl, rfl⟩
  | host => exact ⟨rfl, rfl, rfl, rfl⟩
  | reg | index | pc | sp | entry | dt | st | slot | byte | cell | keypad | reports | shrSource | started => rfl

theorem agreeOn_trans {p : StatePart} {s t u : State} (h : agreeOn p s t) (h' : agreeOn p t u) : agreeOn p s u := by
  cases p with
  | random =>
    obtain ⟨hrnd, hdraws⟩ := h
    obtain ⟨hrnd', hdraws'⟩ := h'
    exact ⟨hrnd'.trans hrnd, hdraws'.trans hdraws⟩
  | host =>
    obtain ⟨hkeys, hframes, htick, hreset⟩ := h
    obtain ⟨hkeys', hframes', htick', hreset'⟩ := h'
    exact ⟨hkeys'.trans hkeys, hframes'.trans hframes, htick'.trans htick, hreset'.trans hreset⟩
  | reg | index | pc | sp | entry | dt | st | slot | byte | cell | keypad | reports | shrSource | started => exact Eq.trans h' h

theorem changesOnly_refl (ps : List StatePart) (s : State) : changesOnly ps s s := fun p _ => agreeOn_refl p s

theorem changesOnly_append {ps qs : List StatePart} {s t u : State} (h : changesOnly ps s t) (h' : changesOnly qs t u) :
    changesOnly (ps ++ qs) s u := fun p hp =>
  agreeOn_trans (h p fun hin => hp (List.mem_append_left qs hin)) (h' p fun hin => hp (List.mem_append_right ps hin))

theorem changesOnly_mono {ps qs : List StatePart} {s t : State} (h : changesOnly ps s t) (hsub : ps ⊆ qs) : changesOnly qs s t :=
  fun p hp => h p fun hin => hp (hsub hin)

/-! ## Registers and PC -/

/-- A result and a flag change the destination and VF alone. -/
theorem changesOnly_setResultAndFlag (s : State) (x : RegIdx) (result : Byte) (flag : Bool) :
    changesOnly [.reg x, .reg 0xF#4] s (s.setResultAndFlag x result flag) :=
  changesOnly_append (changesOnly_setV s x result) (changesOnly_setV _ 0xF#4 _)

theorem changesOnly_skipIf (s : State) (c : Bool) : changesOnly [.pc] s (s.skipIf c) := by
  rw [State.skipIf_eq]
  exact changesOnly_setPc s _

theorem changesOnly_advancePc (s : State) : changesOnly [.pc] s s.advancePc := changesOnly_setPc s _

theorem changesOnly_retreatPc (s : State) : changesOnly [.pc] s s.retreatPc := changesOnly_setPc s _

/-! ## The call stack -/

/-- A push changes SP and the one entry SP named. -/
theorem changesOnly_pushPc (s : State) : changesOnly [.entry s.sp, .sp] s s.pushPc := by
  intro p hp
  cases p with
  | entry k =>
    have hk : k ≠ s.sp := by rintro rfl; simp at hp
    exact (s.stack_pushPc k).trans (if_neg hk)
  | sp => simp at hp
  | random => exact ⟨s.pushPc_rnd, s.pushPc_draws⟩
  | host => exact ⟨s.pushPc_keyFrames, s.pushPc_frames, s.pushPc_tickRequest, s.pushPc_resetRequest⟩
  | reg | index | pc | dt | st | slot | byte | cell | keypad | reports | shrSource | started => rfl

/-- A pop changes SP and PC, and no entry. -/
theorem changesOnly_popPc (s : State) : changesOnly [.sp, .pc] s s.popPc := by
  intro p hp
  cases p with
  | sp | pc => simp at hp
  | random => exact ⟨s.popPc_rnd, s.popPc_draws⟩
  | host => exact ⟨s.popPc_keyFrames, s.popPc_frames, s.popPc_tickRequest, s.popPc_resetRequest⟩
  | reg | index | entry | dt | st | slot | byte | cell | keypad | reports | shrSource | started => rfl

/-! ## The random source, the reports, Memory -/

theorem changesOnly_afterDraw (s : State) : changesOnly [.random] s s.afterDraw := by
  intro p hp
  cases p with
  | random => simp at hp
  | host => exact ⟨s.afterDraw_keyFrames, s.afterDraw_frames, s.afterDraw_tickRequest, s.afterDraw_resetRequest⟩
  | reg | index | pc | sp | entry | dt | st | slot | byte | cell | keypad | reports | shrSource | started => rfl

theorem changesOnly_report (s : State) (w : Word) : changesOnly [.reports] s (s.report w) := by
  intro p hp
  cases p with
  | reports => simp at hp
  | random => exact ⟨s.report_rnd w, s.report_draws w⟩
  | host => exact ⟨s.report_keyFrames w, s.report_frames w, s.report_tickRequest w, s.report_resetRequest w⟩
  | reg | index | pc | sp | entry | dt | st | slot | byte | cell | keypad | shrSource | started => rfl

theorem changesOnly_writeByte (s : State) (a : Addr) (b : Byte) : changesOnly [.byte a] s (s.writeByte a b) := by
  intro p hp
  cases p with
  | byte j =>
    have hj : j ≠ a := by rintro rfl; simp at hp
    exact (s.readByte_writeByte a b j).trans (if_neg hj)
  | random => exact ⟨s.writeByte_rnd a b, s.writeByte_draws a b⟩
  | host => exact ⟨s.writeByte_keyFrames a b, s.writeByte_frames a b, s.writeByte_tickRequest a b, s.writeByte_resetRequest a b⟩
  | reg | index | pc | sp | entry | dt | st | slot | cell | keypad | reports | shrSource | started => rfl

/-! ## What stands around an instruction step -/

theorem changesOnly_markStarted (s : State) : changesOnly [.started] s s.markStarted := by
  intro p hp
  cases p with
  | started => simp at hp
  | random => exact ⟨s.markStarted_rnd, s.markStarted_draws⟩
  | host => exact ⟨s.markStarted_keyFrames, s.markStarted_frames, s.markStarted_tickRequest, s.markStarted_resetRequest⟩
  | reg | index | pc | sp | entry | dt | st | slot | byte | cell | keypad | reports | shrSource => rfl

theorem changesOnly_setSlot (s : State) (n : Nat) : changesOnly [.slot] s (s.setSlot n) := by
  intro p hp
  cases p with
  | slot => simp at hp
  | random => exact ⟨s.setSlot_rnd n, s.setSlot_draws n⟩
  | host => exact ⟨s.setSlot_keyFrames n, s.setSlot_frames n, s.setSlot_tickRequest n, s.setSlot_resetRequest n⟩
  | reg | index | pc | sp | entry | dt | st | byte | cell | keypad | reports | shrSource | started => rfl

theorem changesOnly_timerStep (s : State) : changesOnly [.dt, .st] s s.timerStep := by
  intro p hp
  cases p with
  | dt | st => simp at hp
  | random => exact ⟨s.timerStep_rnd, s.timerStep_draws⟩
  | host => exact ⟨s.timerStep_keyFrames, s.timerStep_frames, s.timerStep_tickRequest, s.timerStep_resetRequest⟩
  | reg | index | pc | sp | entry | slot | byte | cell | keypad | reports | shrSource | started => rfl

/-- The host's frame changes the key levels, and which frames are still listed. -/
theorem changesOnly_hostFrame (s : State) : changesOnly [.keypad, .host] s s.hostFrame := by
  intro p hp
  cases p with
  | keypad | host => simp at hp
  | random => exact ⟨s.hostFrame_rnd, s.hostFrame_draws⟩
  | reg | index | pc | sp | entry | dt | st | slot | byte | cell | reports | shrSource | started => rfl

end Sys2Proof.Proofs.Frames
end

