-- ==== Sys2Proof/Proofs/Sprites.lean ====
section
/-! PROOFS. Drawing (44_display.md R131 to R134): the list of cells a sprite presents is the set `spriteCovers`, plotting it toggles those
cells, and VF is whether one of them was on. -/

namespace Sys2Proof.Proofs.Sprites

open Sys2Proof Sys2Proof.Machine Sys2Proof.Proofs.Encoding Sys2Proof.Proofs.Frames Sys2Proof.Proofs.Alu Sys2Proof.Proofs.DisplayClear

/-! ## The cells -/

/-- The cells `Dxyn` presents to Display, from the state its execute part starts from. -/
def cellsOf (s : State) (x y : RegIdx) (n : BitVec 4) : List Nat :=
  s.spriteCells (originCol (s.getV x)) (originRow (s.getV y)) (List.range n.toNat)

/-- The drawing `Dxyn` does: its cells plotted on Display, no collision found yet. -/
def drawing (s : State) (x y : RegIdx) (n : BitVec 4) : Canvas := Canvas.plotAll ⟨s.display, false⟩ (cellsOf s x y n)

theorem mem_cellsOf {s : State} {x y : RegIdx} {n : BitVec 4} {k : Nat} : k ∈ cellsOf s x y n ↔ spriteCovers s x y n k := by
  rw [cellsOf, State.mem_spriteCells List.pairwise_lt_range]
  constructor
  · rintro ⟨row, hrow, hy, col, hcol, hx, hbit, hk⟩
    exact ⟨row, col, List.mem_range.mp hrow, hcol, Nat.le_of_lt_succ hy, Nat.le_of_lt_succ hx, hbit, hk⟩
  · rintro ⟨row, col, hrow, hcol, hy, hx, hbit, hk⟩
    exact ⟨row, List.mem_range.mpr hrow, Nat.lt_succ_of_le hy, col, hcol, Nat.lt_succ_of_le hx, hbit, hk⟩

theorem nodup_cellsOf (s : State) (x y : RegIdx) (n : BitVec 4) : (cellsOf s x y n).Nodup :=
  State.nodup_spriteCells List.pairwise_lt_range

/-- A cell of a sprite is on the screen (R132). -/
theorem onScreen_of_mem_cellsOf {s : State} {x y : RegIdx} {n : BitVec 4} {k : Nat} (h : k ∈ cellsOf s x y n) :
    k < 2048 ∧ ∃ py px : Nat, py ≤ 31 ∧ px ≤ 63 ∧ k = py * 64 + px := by
  obtain ⟨row, col, -, -, hy, hx, -, rfl⟩ := mem_cellsOf.mp h
  exact ⟨by omega, _, _, hy, hx, rfl⟩

/-- The cells depend on the rows' bytes alone, those of the rows on the screen. -/
theorem spriteCells_congr {s t : State} {ox oy : Nat} {rows : List Nat}
    (h : ∀ row ∈ rows, oy + row < 32 → t.readByte (t.dataAddr row) = s.readByte (s.dataAddr row)) :
    t.spriteCells ox oy rows = s.spriteCells ox oy rows := by
  induction rows with
  | nil => rfl
  | cons row rows ih =>
    simp only [State.spriteCells]
    split
    · rfl
    · next hclip =>
      rw [h row (by simp) (Nat.lt_of_not_le hclip), ih fun r hr => h r (by simp [hr])]

/-- Two states with the same origin, I and Memory present the same cells. -/
theorem cellsOf_congr {s t : State} {x y : RegIdx} (hx : t.getV x = s.getV x) (hy : t.getV y = s.getV y)
    (hi : t.i = s.i) (hmem : ∀ a, t.readByte a = s.readByte a) (n : BitVec 4) : cellsOf t x y n = cellsOf s x y n := by
  rw [cellsOf, cellsOf, hx, hy]
  exact spriteCells_congr fun row _ _ => by rw [hmem, State.dataAddr, State.dataAddr, hi]

/-! ## The drawing -/

/-- A cell is inverted when the sprite presents it, and unchanged otherwise (R134). -/
theorem pixel_drawing (s : State) (x y : RegIdx) (n : BitVec 4) (k : Nat) :
    pixel (drawing s x y n).cells k = (pixel s.display k ^^ decide (k ∈ cellsOf s x y n)) :=
  (Canvas.plotAll_spec _ (nodup_cellsOf s x y n) (fun _ h => (onScreen_of_mem_cellsOf h).1) _).1 k

theorem pixel_drawing_of_covers {s : State} {x y : RegIdx} {n : BitVec 4} {k : Nat} (h : spriteCovers s x y n k) :
    pixel (drawing s x y n).cells k = !(pixel s.display k) := by
  simp [pixel_drawing, mem_cellsOf.mpr h]

theorem pixel_drawing_of_not_covers {s : State} {x y : RegIdx} {n : BitVec 4} {k : Nat} (h : ¬ spriteCovers s x y n k) :
    pixel (drawing s x y n).cells k = pixel s.display k := by
  simp [pixel_drawing, mem_cellsOf, h]

/-- A collision is a cell of the sprite that was on (R134). -/
theorem hit_drawing (s : State) (x y : RegIdx) (n : BitVec 4) :
    (drawing s x y n).hit = true ↔ ∃ k, spriteCovers s x y n k ∧ pixel s.display k = true := by
  have hhit := (Canvas.plotAll_spec _ (nodup_cellsOf s x y n) (fun _ h => (onScreen_of_mem_cellsOf h).1) ⟨s.display, false⟩).2
  simpa [drawing, mem_cellsOf] using hhit

/-! ## The meaning -/

/-- A register written twice holds the second value. -/
theorem setV_setV (s : State) (x : RegIdx) (a b : Byte) : (s.setV x a).setV x b = s.setV x b := by
  simp [State.setV]

/-- The state `Dxyn` leaves: the collision in VF, the drawing on Display. -/
def drawn (s : State) (x y : RegIdx) (n : BitVec 4) : State :=
  (s.setV 0xF#4 (if (drawing s x y n).hit then 0x01#8 else 0x00#8)).setDisplay (drawing s x y n).cells

/-- That VF is cleared before the drawing shows neither in the cells nor in the VF left. -/
theorem exec_drw (x y : RegIdx) (n : BitVec 4) (s : State) : exec (.drw x y n) s = .next (drawn s x y n) := by
  have hcells : (s.setV 0xF#4 0x00#8).spriteCells (originCol (s.getV x)) (originRow (s.getV y)) (List.range n.toNat)
      = cellsOf s x y n := spriteCells_congr fun _ _ _ => rfl
  have hdrawing : Canvas.plotAll ⟨s.display, false⟩ (cellsOf s x y n) = drawing s x y n := rfl
  simp only [exec, execDrw, Config.flagReg, hcells, hdrawing, drawn]
  split
  · rw [setV_setV]
  · rfl

theorem display_drawn (s : State) (x y : RegIdx) (n : BitVec 4) : (drawn s x y n).display = (drawing s x y n).cells := rfl

theorem flag_drawn (s : State) (x y : RegIdx) (n : BitVec 4) :
    (drawn s x y n).getV 0xF#4 = if (drawing s x y n).hit then 0x01#8 else 0x00#8 := getV_setV_self s 0xF#4 _

/-- VF is 1 on a collision and 0 otherwise. -/
theorem flag_drawn_eq_one_iff (s : State) (x y : RegIdx) (n : BitVec 4) :
    (drawn s x y n).getV 0xF#4 = 0x01#8 ↔ ∃ k, spriteCovers s x y n k ∧ pixel s.display k = true := by
  rw [flag_drawn, ← hit_drawing]
  cases (drawing s x y n).hit <;> simp

theorem agreeOn_drawn (s : State) (x y : RegIdx) (n : BitVec 4) {p : StatePart} (hreg : p ≠ .reg 0xF#4) (hcell : ∀ k, p ≠ .cell k) :
    agreeOn p s (drawn s x y n) :=
  agreeOn_trans (changesOnly_setV s 0xF#4 _ p (by simpa using hreg)) (agreeOn_setDisplay _ _ hcell)

/-! ## The statements -/

/-- Settles O45: the drawing inverts the covered cells, VF is its collision, the frame is that of one register and Display. -/
theorem drawInvertsTheSpritesCells : Obligations.DrawInvertsTheSpritesCells := by
  intro x y n s
  have hclear : (∀ k, spriteCovers s x y n k → pixel s.display k = false) → (drawn s x y n).getV 0xF#4 = 0x00#8 := fun hoff => by
    rw [flag_drawn, if_neg]
    rw [hit_drawing]
    rintro ⟨k, hk, hon⟩
    simp [hoff k hk] at hon
  exact ⟨decodeWord_encode (i := .drw x y n) rfl, drawn s x y n, exec_drw x y n s, fun _ => pixel_drawing_of_covers,
    fun _ => pixel_drawing_of_not_covers, (flag_drawn_eq_one_iff s x y n).mpr, hclear, fun _ => agreeOn_drawn s x y n⟩

/-- A second drawing at the same registers presents the same cells, since the first changes neither its origin, I nor Memory. -/
theorem cellsOf_drawn (s : State) {x y : RegIdx} (n : BitVec 4) (hx : x ≠ 0xF#4) (hy : y ≠ 0xF#4) :
    cellsOf (drawn s x y n) x y n = cellsOf s x y n :=
  cellsOf_congr (agreeOn_drawn s x y n (p := .reg x) (by simpa using hx) (by simp))
    (agreeOn_drawn s x y n (p := .reg y) (by simpa using hy) (by simp)) rfl (fun _ => rfl) n

/-- Settles O46: the second drawing inverts the same cells back, and a cell it finds on is one the first found off. -/
theorem drawingTwiceRestoresTheDisplay : Obligations.DrawingTwiceRestoresTheDisplay := by
  intro x y n s t u hx hy hst htu
  obtain rfl : drawn s x y n = t := Host.Outcome.next.inj ((exec_drw x y n s).symm.trans hst)
  obtain rfl : drawn (drawn s x y n) x y n = u := Host.Outcome.next.inj ((exec_drw x y n _).symm.trans htu)
  have hcells := cellsOf_drawn s n hx hy
  have hcovers : ∀ k, spriteCovers (drawn s x y n) x y n k ↔ spriteCovers s x y n k := fun k => by
    rw [← mem_cellsOf, hcells, mem_cellsOf]
  constructor
  · refine State.pixel_ext fun k _ => ?_
    rw [display_drawn, pixel_drawing, hcells, display_drawn, pixel_drawing, Bool.xor_assoc, Bool.xor_self, Bool.xor_false]
  · rw [flag_drawn_eq_one_iff]
    refine exists_congr fun k => ?_
    rw [hcovers, and_congr_right_iff]
    intro hk
    rw [display_drawn, pixel_drawing_of_covers hk, Bool.not_eq_true']

/-- The top-left bit's cell is covered where the bit is set: the origin is on the screen (R133). -/
theorem covers_origin {s : State} {x y : RegIdx} {n : BitVec 4} (hn : 0 < n.toNat) (hbit : (s.readByte s.i).getLsbD 7 = true) :
    spriteCovers s x y n ((s.getV y).toNat % 32 * 64 + (s.getV x).toNat % 64) :=
  ⟨0, 0, hn, by omega, by omega, by omega, by simpa using hbit, rfl⟩

/-- Settles O47: the cells by `mem_cellsOf`, once each by `nodup_cellsOf`, the origin by `covers_origin`. -/
theorem spriteCellsAreOnTheScreen : Obligations.SpriteCellsAreOnTheScreen := fun x y n s =>
  ⟨drawn s x y n, cellsOf s x y n, exec_drw x y n s, rfl, rfl, fun _ => onScreen_of_mem_cellsOf, nodup_cellsOf s x y n,
    fun hn hbit => ⟨_, rfl, mem_cellsOf.mpr (covers_origin hn hbit), pixel_drawing_of_covers (covers_origin hn hbit)⟩⟩

end Sys2Proof.Proofs.Sprites
end

