-- ==== Sys2Proof/Proofs/Writers.lean ====
section
/-! PROOFS. Who writes what: the parts of the state each instruction may write, once for all instructions, and from it the tables of
10_state.md and 20_memory.md read part by part. -/

namespace Sys2Proof.Proofs.Writers

open Sys2Proof Sys2Proof.Machine Sys2Proof.Proofs.Frames Sys2Proof.Proofs.Sprites Sys2Proof.Proofs.ControlFlow Sys2Proof.Proofs.Alu
open Sys2Proof.Proofs.IndexMemory Sys2Proof.Proofs.DisplayClear Sys2Proof.Proofs.KeypadTimers

/-! ## The parts an instruction may write -/

/-- The parts of the state the execute part of an instruction may change, the state being the one it starts from. -/
def MayWrite (i : Instr) (s : State) (p : StatePart) : Prop :=
  match i with
  | .cls => ∃ k, p = .cell k
  | .drw _ _ _ => p = .reg 0xF#4 ∨ ∃ k, p = .cell k
  | .ret => p ∈ [.sp, .pc]
  | .call _ => p ∈ [.entry s.sp, .sp, .pc]
  | .jp _ | .jpV0 _ | .seImm _ _ | .sneImm _ _ | .seReg _ _ | .sneReg _ _ | .skp _ | .sknp _ => p ∈ [.pc]
  | .ldImm x _ | .addImm x _ | .ldReg x _ | .orReg x _ | .andReg x _ | .xorReg x _ | .ldVxDt x => p ∈ [.reg x]
  | .addReg x _ | .subReg x _ | .shrReg x _ | .subnReg x _ | .shlReg x _ => p ∈ [.reg x, .reg 0xF#4]
  | .rnd x _ => p ∈ [.random, .reg x]
  | .ldVxK x => p ∈ [.reg x, .pc]
  | .ldDtVx _ => p ∈ [.dt]
  | .ldStVx _ => p ∈ [.st]
  | .ldI _ | .ldF _ => p ∈ [.index]
  | .addI _ => p ∈ [.index, .reg 0xF#4]
  | .ldB _ | .storeRegs _ => p ∈ storedParts i s
  | .loadRegs x => ∃ r, r ≤ x ∧ p = .reg r
  | .unrecognized _ => p ∈ [.reports]

/-- The parts `Fx33` and `Fx55` store to are the bytes at their cells' addresses. -/
theorem mem_storedParts_write {s : State} {cells : List (Nat × Byte)} {p : StatePart} :
    p ∈ (cells.map (fun c => MemAccess.write (s.dataAddr c.1) c.2)).filterMap
        (fun a => match a with | .write a _ => some (StatePart.byte a) | .read _ => none)
      ↔ ∃ c ∈ cells, p = .byte (s.dataAddr c.1) := by
  simp [eq_comm]

theorem mem_storedParts_ldB {s : State} {x : RegIdx} {p : StatePart} :
    p ∈ storedParts (.ldB x) s ↔ ∃ c ∈ decimalDigits (s.getV x), p = .byte (s.dataAddr c.1) := mem_storedParts_write

theorem mem_storedParts_storeRegs {s : State} {x : RegIdx} {p : StatePart} :
    p ∈ storedParts (.storeRegs x) s ↔ ∃ c ∈ s.rangeCells x, p = .byte (s.dataAddr c.1) := mem_storedParts_write

/-- Stores at I agree with the state before outside the bytes stored. -/
theorem agreeOn_storeAtI_of_not_stored {s : State} {cells : List (Nat × Byte)} {p : StatePart}
    (h : ¬ ∃ c ∈ cells, p = .byte (s.dataAddr c.1)) : agreeOn p s (s.storeAtI cells) :=
  agreeOn_storeAtI s cells fun c hc heq => h ⟨c, hc, heq⟩

/-- Every instruction completes, and leaves the parts it may not write. -/
theorem exec_next_agreeOn (i : Instr) (s : State) : ∃ t, exec i s = .next t ∧ ∀ p, ¬ MayWrite i s p → agreeOn p s t := by
  cases i with
  | cls => exact ⟨_, rfl, fun p hp => agreeOn_setDisplay s _ fun k hk => hp ⟨k, hk⟩⟩
  | drw x y n =>
    exact ⟨_, exec_drw x y n s, fun p hp => agreeOn_drawn s x y n (fun h => hp (.inl h)) fun k hk => hp (.inr ⟨k, hk⟩)⟩
  | ret => exact ⟨_, rfl, changesOnly_popPc s⟩
  | call nnn => exact ⟨_, rfl, changesOnly_append (changesOnly_pushPc s) (changesOnly_setPc _ nnn)⟩
  | jp | jpV0 => exact ⟨_, rfl, changesOnly_setPc s _⟩
  | seImm | sneImm | seReg | sneReg | skp | sknp => exact ⟨_, rfl, changesOnly_skipIf s _⟩
  | ldImm x | addImm x | ldReg x | orReg x | andReg x | xorReg x | ldVxDt x => exact ⟨_, rfl, changesOnly_setV s x _⟩
  | addReg x | subReg x | shrReg x | subnReg x | shlReg x => exact ⟨_, rfl, changesOnly_setResultAndFlag s x _ _⟩
  | rnd x => exact ⟨_, rfl, changesOnly_append (changesOnly_afterDraw s) (changesOnly_setV _ x _)⟩
  | ldVxK x =>
    simp only [exec, execLdVxK]
    split
    · exact ⟨_, rfl, changesOnly_mono (changesOnly_setV s x _) (by simp)⟩
    · exact ⟨_, rfl, changesOnly_mono (changesOnly_retreatPc s) (by simp)⟩
  | ldDtVx => exact ⟨_, rfl, changesOnly_setDt s _⟩
  | ldStVx => exact ⟨_, rfl, changesOnly_setSt s _⟩
  | ldI | ldF => exact ⟨_, rfl, changesOnly_setI s _⟩
  | addI => exact ⟨_, rfl, changesOnly_append (changesOnly_setI s _) (changesOnly_setV _ 0xF#4 _)⟩
  | ldB => exact ⟨_, rfl, fun p hp => agreeOn_storeAtI_of_not_stored fun h => hp (mem_storedParts_ldB.mpr h)⟩
  | storeRegs => exact ⟨_, rfl, fun p hp => agreeOn_storeAtI_of_not_stored fun h => hp (mem_storedParts_storeRegs.mpr h)⟩
  | loadRegs x => exact ⟨_, rfl, fun p hp => agreeOn_loadAtI s _ fun r hr heq => hp ⟨r, (mem_regRange x r).mp hr, heq⟩⟩
  | unrecognized w => exact ⟨_, rfl, changesOnly_report s w⟩

section
variable {i : Instr} {s t : State} (h : exec i s = .next t)
include h

/-- A part that an instruction changed is one it may write. -/
theorem mayWrite_of_not_agreeOn {p : StatePart} (hp : ¬ agreeOn p s t) : MayWrite i s p := by
  obtain ⟨t', ht', hframe⟩ := exec_next_agreeOn i s
  obtain rfl : t' = t := Host.Outcome.next.inj (ht'.symm.trans h)
  exact Classical.byContradiction fun hno => hp (hframe p hno)

/-- What `ExecKeeps` names, for a given next state. -/
theorem execKeeps_of_exec : ExecKeeps i s t := by
  obtain ⟨t', ht', hkeeps⟩ := exec_next i s
  obtain rfl : t' = t := Host.Outcome.next.inj (ht'.symm.trans h)
  exact hkeeps

/-! ## The writers of each part -/

theorem writer_of_index (hne : t.i ≠ s.i) : (∃ nnn, i = .ldI nnn) ∨ (∃ x, i = .addI x) ∨ ∃ x, i = .ldF x := by
  have hw := mayWrite_of_not_agreeOn h (p := .index) hne
  cases i with
  | ldI nnn => exact .inl ⟨nnn, rfl⟩
  | addI x => exact .inr (.inl ⟨x, rfl⟩)
  | ldF x => exact .inr (.inr ⟨x, rfl⟩)
  | _ => simp [MayWrite, mem_storedParts_ldB, mem_storedParts_storeRegs] at hw

theorem writer_of_stack (hne : t.stack ≠ s.stack) : ∃ nnn, i = .call nnn := by
  obtain ⟨k, hk⟩ : ∃ k, ¬ agreeOn (.entry k) s t := by
    by_contra! hall
    exact hne (Vector.ext fun k hk => hall (BitVec.ofFin ⟨k, hk⟩))
  have hw := mayWrite_of_not_agreeOn h hk
  cases i with
  | call nnn => exact ⟨nnn, rfl⟩
  | _ => simp [MayWrite, mem_storedParts_ldB, mem_storedParts_storeRegs] at hw

theorem writer_of_sp (hne : t.sp ≠ s.sp) : i = .ret ∨ ∃ nnn, i = .call nnn := by
  have hw := mayWrite_of_not_agreeOn h (p := .sp) hne
  cases i with
  | ret => exact .inl rfl
  | call nnn => exact .inr ⟨nnn, rfl⟩
  | _ => simp [MayWrite, mem_storedParts_ldB, mem_storedParts_storeRegs] at hw

theorem writer_of_dt (hne : t.dt ≠ s.dt) : ∃ x, i = .ldDtVx x := by
  have hw := mayWrite_of_not_agreeOn h (p := .dt) hne
  cases i with
  | ldDtVx x => exact ⟨x, rfl⟩
  | _ => simp [MayWrite, mem_storedParts_ldB, mem_storedParts_storeRegs] at hw

theorem writer_of_st (hne : t.st ≠ s.st) : ∃ x, i = .ldStVx x := by
  have hw := mayWrite_of_not_agreeOn h (p := .st) hne
  cases i with
  | ldStVx x => exact ⟨x, rfl⟩
  | _ => simp [MayWrite, mem_storedParts_ldB, mem_storedParts_storeRegs] at hw

theorem writer_of_pc (hne : t.pc ≠ s.pc) :
    i = .ret ∨ (∃ nnn, i = .jp nnn ∨ i = .call nnn ∨ i = .jpV0 nnn)
    ∨ (∃ x nn, i = .seImm x nn ∨ i = .sneImm x nn) ∨ (∃ x y, i = .seReg x y ∨ i = .sneReg x y)
    ∨ ∃ x, i = .skp x ∨ i = .sknp x ∨ i = .ldVxK x := by
  have hw := mayWrite_of_not_agreeOn h (p := .pc) hne
  cases i with
  | ret => exact .inl rfl
  | jp | call | jpV0 => exact .inr (.inl (by simp))
  | seImm | sneImm => exact .inr (.inr (.inl (by simp)))
  | seReg | sneReg => exact .inr (.inr (.inr (.inl (by simp))))
  | skp | sknp | ldVxK => exact .inr (.inr (.inr (.inr (by simp))))
  | _ => simp [MayWrite, mem_storedParts_ldB, mem_storedParts_storeRegs] at hw

theorem writer_of_byte {a : Addr} (hne : t.readByte a ≠ s.readByte a) :
    .byte a ∈ storedParts i s ∧ ((∃ x, i = .ldB x) ∨ ∃ x, i = .storeRegs x) := by
  have hw := mayWrite_of_not_agreeOn h (p := .byte a) hne
  cases i with
  | ldB x => exact ⟨hw, .inl ⟨x, rfl⟩⟩
  | storeRegs x => exact ⟨hw, .inr ⟨x, rfl⟩⟩
  | _ => simp [MayWrite] at hw

theorem writer_of_display (hne : t.display ≠ s.display) : i = .cls ∨ ∃ x y n, i = .drw x y n := by
  obtain ⟨k, hk⟩ : ∃ k, ¬ agreeOn (.cell k) s t := by
    by_contra! hall
    exact hne (State.pixel_ext fun k _ => hall k)
  have hw := mayWrite_of_not_agreeOn h hk
  cases i with
  | cls => exact .inl rfl
  | drw x y n => exact .inr ⟨x, y, n, rfl⟩
  | _ => simp [MayWrite, mem_storedParts_ldB, mem_storedParts_storeRegs] at hw

theorem writer_of_random (hne : t.draws ≠ s.draws ∨ t.rnd ≠ s.rnd) : ∃ x nn, i = .rnd x nn := by
  have hno : ¬ agreeOn .random s t := fun ⟨hrnd, hdraws⟩ => hne.elim (· hdraws) (· hrnd)
  have hw := mayWrite_of_not_agreeOn h hno
  cases i with
  | rnd x nn => exact ⟨x, nn, rfl⟩
  | _ => simp [MayWrite, mem_storedParts_ldB, mem_storedParts_storeRegs] at hw

/-- The destinations of 10_state.md section 1, and VF for the seven flag writers. -/
theorem writer_of_reg {r : RegIdx} (hne : t.getV r ≠ s.getV r) :
    (∃ nn, i = .ldImm r nn ∨ i = .addImm r nn ∨ i = .rnd r nn)
    ∨ (∃ y, i = .ldReg r y ∨ i = .orReg r y ∨ i = .andReg r y ∨ i = .xorReg r y ∨ i = .addReg r y ∨ i = .subReg r y
        ∨ i = .shrReg r y ∨ i = .subnReg r y ∨ i = .shlReg r y)
    ∨ i = .ldVxDt r ∨ i = .ldVxK r ∨ (∃ x, r ≤ x ∧ i = .loadRegs x)
    ∨ (r = 0xF#4 ∧ ((∃ x y, i = .addReg x y ∨ i = .subReg x y ∨ i = .shrReg x y ∨ i = .subnReg x y ∨ i = .shlReg x y)
        ∨ (∃ x y n, i = .drw x y n) ∨ ∃ x, i = .addI x)) := by
  have hw := mayWrite_of_not_agreeOn h (p := .reg r) hne
  cases i with
  | ldImm | addImm | rnd =>
    obtain rfl := by simpa [MayWrite] using hw
    exact .inl (by simp)
  | ldReg | orReg | andReg | xorReg =>
    obtain rfl := by simpa [MayWrite] using hw
    exact .inr (.inl (by simp))
  | addReg | subReg | shrReg | subnReg | shlReg =>
    obtain rfl | hflag := by simpa [MayWrite] using hw
    · exact .inr (.inl (by simp))
    · exact .inr (.inr (.inr (.inr (.inr ⟨hflag, .inl (by simp)⟩))))
  | ldVxDt =>
    obtain rfl := by simpa [MayWrite] using hw
    exact .inr (.inr (.inl rfl))
  | ldVxK =>
    obtain rfl := by simpa [MayWrite] using hw
    exact .inr (.inr (.inr (.inl rfl)))
  | loadRegs x =>
    have hr : r ≤ x := by simpa [MayWrite] using hw
    exact .inr (.inr (.inr (.inr (.inl ⟨x, hr, rfl⟩))))
  | drw x y n =>
    have hr : r = 0xF#4 := by simpa [MayWrite] using hw
    exact .inr (.inr (.inr (.inr (.inr ⟨hr, .inr (.inl ⟨x, y, n, rfl⟩)⟩))))
  | addI x =>
    have hr : r = 0xF#4 := by simpa [MayWrite] using hw
    exact .inr (.inr (.inr (.inr (.inr ⟨hr, .inr (.inr ⟨x, rfl⟩)⟩))))
  | _ => simp [MayWrite, mem_storedParts_ldB, mem_storedParts_storeRegs] at hw

end

/-! ## The flag a flag writer leaves (R12) -/

/-- A flag narrowed to a byte is 0 or 1. -/
theorem flagByte_cases (flag : Bool) : (if flag then 0x01#8 else 0x00#8 : Byte) = 0x00#8 ∨ (if flag then 0x01#8 else 0x00#8 : Byte) = 0x01#8 := by
  cases flag <;> simp

/-- An instruction that ends in a result and a flag leaves VF 0 or 1. -/
theorem flag_of_setResultAndFlag {s t : State} {x : RegIdx} {result : Byte} {flag : Bool}
    (h : (Host.Outcome.next (s.setResultAndFlag x result flag) : Host.Outcome State Fault Refusal) = .next t) :
    t.getV 0xF#4 = 0x00#8 ∨ t.getV 0xF#4 = 0x01#8 := by
  obtain rfl := Host.Outcome.next.inj h
  rw [State.getV_setResultAndFlag, if_pos rfl]
  exact flagByte_cases flag

/-- Each of the seven flag writers leaves VF 0 or 1. -/
theorem flag_of_flagWriter {i : Instr} {s t : State} (h : exec i s = .next t)
    (hi : (∃ x y, i = .addReg x y ∨ i = .subReg x y ∨ i = .shrReg x y ∨ i = .subnReg x y ∨ i = .shlReg x y)
      ∨ (∃ x y n, i = .drw x y n) ∨ ∃ x, i = .addI x) : t.getV 0xF#4 = 0x00#8 ∨ t.getV 0xF#4 = 0x01#8 := by
  rcases hi with ⟨x, y, rfl | rfl | rfl | rfl | rfl⟩ | ⟨x, y, n, rfl⟩ | ⟨x, rfl⟩
  · exact flag_of_setResultAndFlag h
  · exact flag_of_setResultAndFlag h
  · exact flag_of_setResultAndFlag h
  · exact flag_of_setResultAndFlag h
  · exact flag_of_setResultAndFlag h
  · obtain rfl := Host.Outcome.next.inj ((exec_drw x y n s).symm.trans h)
    rw [flag_drawn]
    exact flagByte_cases _
  · obtain rfl := Host.Outcome.next.inj h
    rw [getV_setV_self]
    exact flagByte_cases _

/-! ## The statements -/

/-- Settles O52: the writers of I, the stack, SP and the timers. -/
theorem writersOfIndexStackAndTimers : Obligations.WritersOfIndexStackAndTimers := fun _ _ _ h =>
  ⟨writer_of_index h, writer_of_stack h, writer_of_sp h, writer_of_dt h, writer_of_st h⟩

/-- Settles O53: the writers of Memory, Display and the random source, and what `ExecKeeps` says of the reports and of the rest. -/
theorem writersOfMemoryDisplayAndReports : Obligations.WritersOfMemoryDisplayAndReports := by
  intro i s t h
  have hkeeps := execKeeps_of_exec h
  exact ⟨fun _ => writer_of_byte h, writer_of_display h, writer_of_random h, fun hne => hkeeps.reports.resolve_left hne,
    hkeeps.keys, hkeeps.slot, hkeeps.keyFrames, hkeeps.frames, hkeeps.tickRequest, hkeeps.resetRequest⟩

/-- Settles O54: the writers of a register, and the flag a flag writer leaves. -/
theorem writersOfRegistersAndFlag : Obligations.WritersOfRegistersAndFlag := fun _ _ _ h =>
  ⟨fun _ => writer_of_reg h, flag_of_flagWriter h⟩

/-- Settles O55: the writers of PC. -/
theorem writersOfPc : Obligations.WritersOfPc := fun _ _ _ h => writer_of_pc h

end Sys2Proof.Proofs.Writers
end

