-- ==== Sys2Proof/Proofs/Steps.lean ====
section
/-! PROOFS. One step (40_cycle.md): what a step that answers a next state did, the end of a slot, and from the two the invariant, the
timers, the keys and the parameter; then the statements about single steps. -/

namespace Sys2Proof.Proofs.Steps

open Sys2Proof Sys2Proof.Machine Sys2Proof.Proofs.Encoding Sys2Proof.Proofs.Frames Sys2Proof.Proofs.Writers
open Sys2Proof.Proofs.ControlFlow Sys2Proof.Proofs.Alu Sys2Proof.Proofs.Cycle Sys2Proof.Proofs.Reset

/-! ## The end of a slot -/

theorem endSlot_of_lt {s : State} (h : s.slot + 1 < 11) : s.endSlot = s.markStarted.setSlot (s.slot + 1) := if_pos h

theorem endSlot_of_ge {s : State} (h : 11 ≤ s.slot + 1) : s.endSlot = (s.markStarted.timerStep.setSlot 0).hostFrame :=
  if_neg (Nat.not_lt.mpr h)

theorem endSlot_slot (s : State) : s.endSlot.slot = if s.slot + 1 < 11 then s.slot + 1 else 0 := by
  split
  · next h => rw [endSlot_of_lt h]; rfl
  · next h => rw [endSlot_of_ge (Nat.le_of_not_lt h)]; rfl

theorem endSlot_slot_lt (s : State) : s.endSlot.slot < 11 := by
  rw [endSlot_slot]
  split <;> omega

@[simp] theorem endSlot_mem (s : State) : s.endSlot.mem = s.mem := by
  rcases s.endSlot_cases with ⟨-, h⟩ | ⟨-, h⟩ <;> rw [h] <;> rfl

@[simp] theorem endSlot_reports (s : State) : s.endSlot.reports = s.reports := by
  rcases s.endSlot_cases with ⟨-, h⟩ | ⟨-, h⟩ <;> rw [h] <;> rfl

@[simp] theorem endSlot_shrFlagSrc (s : State) : s.endSlot.shrFlagSrc = s.shrFlagSrc := by
  rcases s.endSlot_cases with ⟨-, h⟩ | ⟨-, h⟩ <;> rw [h] <;> rfl

/-- Within a tick the slot is counted, and a tick has begun: nothing else. -/
theorem changesOnly_endSlot_of_lt {s : State} (h : s.slot + 1 < 11) : changesOnly [.slot, .started] s s.endSlot := by
  rw [endSlot_of_lt h]
  exact changesOnly_mono (changesOnly_append (changesOnly_markStarted s) (changesOnly_setSlot _ _)) (by simp)

/-- At a tick's end the timers, the key levels and the host's frames move too. -/
theorem changesOnly_endSlot_of_ge {s : State} (h : 11 ≤ s.slot + 1) :
    changesOnly [.slot, .dt, .st, .keypad, .host, .started] s s.endSlot := by
  rw [endSlot_of_ge h]
  refine changesOnly_mono (changesOnly_append (changesOnly_append (changesOnly_append (changesOnly_markStarted s)
    (changesOnly_timerStep _)) (changesOnly_setSlot _ 0)) (changesOnly_hostFrame _)) ?_
  simp

/-- The host's next frame is the first listed one (log entry 2). -/
theorem nextKeys_of_listed {s : State} {k : Keypad} {ks : List Keypad} (h : s.keyFrames = k :: ks) : s.nextKeys = k := by
  simp [State.nextKeys, h]

/-- Settles O6: the two cases of `endSlot`, each with its frame. -/
theorem endOfSlotCountsOrClosesTheTick : Obligations.EndOfSlotCountsOrClosesTheTick := by
  intro s
  refine ⟨s.endSlot_started, fun h => ⟨?_, changesOnly_endSlot_of_lt h⟩, fun h => ?_⟩
  · rw [endSlot_slot, if_pos h]
  · have hframe := changesOnly_endSlot_of_ge h
    rw [endSlot_of_ge h] at hframe ⊢
    exact ⟨rfl, countDown_toNat s.dt, countDown_toNat s.st,
      fun k ks hks => ⟨nextKeys_of_listed (s := s.markStarted.timerStep.setSlot 0) hks, congrArg List.tail hks⟩, rfl, rfl, hframe⟩

/-! ## A step that answers a next state -/

/-- What a step did: a reset, nothing, or an instruction and the end of its slot. -/
theorem step_next_cases {s t : State} (h : step s = .next t) :
    (s.resetRequest = true ∧ t = s.takeReset) ∨ (¬ s.running ∧ t = s)
      ∨ (s.running ∧ ∃ u, exec (decodeWord s.fetchWord) s.advancePc = .next u ∧ t = u.endSlot) := by
  rcases step_cases s with ⟨hreset, hstep⟩ | ⟨-, hslot, hrequest, hstep⟩ | ⟨hrun, u, hexec, hstep⟩
  · exact .inl ⟨hreset, Host.Outcome.next.inj (h.symm.trans hstep)⟩
  · refine .inr (.inl ⟨fun hrun => ?_, Host.Outcome.next.inj (h.symm.trans hstep)⟩)
    simp [hrun.2 hslot] at hrequest
  · exact .inr (.inr ⟨hrun, u, hexec, Host.Outcome.next.inj (h.symm.trans hstep)⟩)

/-! ## The invariant -/

/-- A report an instruction makes is of an unrecognized word, where the instruction is well formed. -/
theorem reports_of_exec {i : Instr} {s t : State} (h : exec i s = .next t) (hi : i.wellFormed = true)
    (hs : ∀ w ∈ s.reports, unrecognizedWord w = true) : ∀ w ∈ t.reports, unrecognizedWord w = true := by
  rcases (execKeeps_of_exec h).reports with hkept | ⟨v, rfl, hadded⟩
  · rwa [hkept]
  · rw [hadded]
    intro w hw
    rcases List.mem_append.mp hw with hold | hnew
    · exact hs w hold
    · exact List.mem_singleton.mp hnew ▸ hi

theorem stateInv_takeReset {s : State} (h : StateInv s) : StateInv s.takeReset := by
  obtain ⟨hmem, -, hreports, -⟩ := h
  exact ⟨hmem, Nat.zero_lt_succ 10, hreports, fun hslot => absurd rfl hslot⟩

/-- After a slot the invariant asks only for Memory's form and the reports. -/
theorem stateInv_endSlot {s : State} (hmem : s.mem.wf = true) (hreports : ∀ w ∈ s.reports, unrecognizedWord w = true) :
    StateInv s.endSlot :=
  ⟨by rwa [endSlot_mem], endSlot_slot_lt s, by rwa [endSlot_reports], fun _ => s.endSlot_started⟩

/-- Settles O4: a reset and an idle step keep the invariant; an instruction keeps Memory's form and reports only what the decoder gave
the catch-all. -/
theorem everyStepKeepsTheInvariant : Obligations.EveryStepKeepsTheInvariant := by
  intro s t hinv hstep
  rcases step_next_cases hstep with ⟨-, rfl⟩ | ⟨-, rfl⟩ | ⟨-, u, hexec, rfl⟩
  · exact stateInv_takeReset hinv
  · exact hinv
  · obtain ⟨hmem, -, hreports, -⟩ := hinv
    exact stateInv_endSlot ((execKeeps_of_exec hexec).memory hmem) (reports_of_exec hexec (wellFormed_decodeWord _) hreports)

/-- Settles O3: the reset state lists no byte and no report, and is between ticks. -/
theorem resetMeetsTheKeptInvariant : Obligations.ResetMeetsTheKeptInvariant :=
  ⟨Memory.wf_reset, by decide, fun _ hw => absurd hw List.not_mem_nil, fun hslot => absurd rfl hslot⟩

/-! ## What moves only at a tick's end -/

/-- A slot before the last leaves what its instruction leaves, but for the slot count and the note that a tick has begun. -/
theorem agreeOn_endSlot_of_exec {i : Instr} {s u : State} (h : exec i s.advancePc = .next u) (hslot : s.slot + 1 < 11)
    {p : StatePart} (hp : p ∉ [.slot, .started]) : agreeOn p u u.endSlot := by
  have hu : u.slot = s.slot := (execKeeps_of_exec h).slot
  exact changesOnly_endSlot_of_lt (hu ▸ hslot) p hp

/-- Settles O9: no reset and no instruction writes the key levels, and before the last slot no host frame comes. -/
theorem keysAreFrozenWithinATick : Obligations.KeysAreFrozenWithinATick := by
  intro s t hstep hslot
  rcases step_next_cases hstep with ⟨-, rfl⟩ | ⟨-, rfl⟩ | ⟨-, u, hexec, rfl⟩
  · rfl
  · rfl
  · have hend : u.endSlot.keys = u.keys := agreeOn_endSlot_of_exec hexec hslot (p := .keypad) (by simp)
    exact hend.trans (execKeeps_of_exec hexec).keys

/-- Settles O11: before the last slot the timers are those the instruction left, and a timer it changed is one it loaded. -/
theorem timersMoveOnlyByLoadOrTickEnd : Obligations.TimersMoveOnlyByLoadOrTickEnd := by
  intro s t hstep hreleased hslot
  rcases step_next_cases hstep with ⟨hreset, -⟩ | ⟨-, rfl⟩ | ⟨-, u, hexec, rfl⟩
  · simp [hreleased] at hreset
  · exact ⟨fun hne => absurd rfl hne, fun hne => absurd rfl hne⟩
  · have hdt : u.endSlot.dt = u.dt := agreeOn_endSlot_of_exec hexec hslot (p := .dt) (by simp)
    have hst : u.endSlot.st = u.st := agreeOn_endSlot_of_exec hexec hslot (p := .st) (by simp)
    exact ⟨fun hne => writer_of_dt hexec (hdt ▸ hne), fun hne => writer_of_st hexec (hst ▸ hne)⟩

/-- Settles O56: neither a reset nor an instruction nor the end of a slot writes the parameter. -/
theorem noStepWritesTheFlagSource : Obligations.NoStepWritesTheFlagSource := by
  intro s t hstep
  rcases step_next_cases hstep with ⟨-, rfl⟩ | ⟨-, rfl⟩ | ⟨-, u, hexec, rfl⟩
  · rfl
  · rfl
  · exact (endSlot_shrFlagSrc u).trans (execKeeps_of_exec hexec).shrFlagSrc

/-! ## Reset and idling -/

theorem getV_takeReset (s : State) (r : RegIdx) : s.takeReset.getV r = 0x00#8 := by
  simp [State.getV]

/-- Settles O2: reset is taken at any slot, and `State.takeReset` says what it writes. -/
theorem resetTakenAtAnySlot : Obligations.ResetTakenAtAnySlot := fun s h =>
  ⟨s.takeReset, step_of_resetRequest h, getV_takeReset s, rfl, rfl, rfl, fun k => by simp, rfl, rfl, rfl, s.readByte_takeReset,
    fun _ => rfl, rfl, ⟨rfl, rfl⟩, rfl, rfl, rfl, rfl, rfl, rfl, rfl⟩

/-- Settles O10: by the idle case of a step. -/
theorem idleCoreHoldsItsState : Obligations.IdleCoreHoldsItsState := fun _ => step_of_idle

/-! ## The fetch -/

/-- An address two bytes on, as a number: the sum wraps at the top of Memory (D3). -/
theorem addr_add_two_toNat (a : Addr) : (a + 0x002#12).toNat = (a.toNat + 2) % 0x1000 := BitVec.toNat_add a 0x002#12

/-- The byte at PC is the high half of the word fetched (R42). -/
theorem fetchWord_toNat (s : State) :
    s.fetchWord.toNat = 256 * (s.readByte s.pc).toNat + (s.readByte (s.pc + 0x001#12)).toNat := by
  rw [State.fetchWord, wordOfBytes, toNat_append_eq]
  omega

/-- Settles O5: the two bytes decode to the word fetched, and a running step executes its instruction. -/
theorem stepRunsTheDecodedInstruction : Obligations.StepRunsTheDecodedInstruction := by
  intro s hrun i hdecode
  obtain rfl : decodeWord s.fetchWord = i := congrArg Prod.fst (Except.ok.inj hdecode)
  exact ⟨rfl, fetchWord_toNat s, addr_add_two_toNat s.pc, changesOnly_advancePc s, step_of_running hrun⟩

/-- A word stored is read back high byte first, also across the top of Memory. -/
theorem wordOfBytes_storeWord (s : State) (a : Addr) (w : Word) :
    wordOfBytes ((s.storeWord a w).readByte a) ((s.storeWord a w).readByte (a + 0x001#12)) = w := by
  have hne : a ≠ a + 0x001#12 := by bv_omega
  simp [State.storeWord, hne]

/-- The host's requests are the part `.host` alone. -/
theorem changesOnly_requests (s : State) (tick reset : Bool) :
    changesOnly [.host] s { s with tickRequest := tick, resetRequest := reset } := by
  intro p hp
  cases p with
  | host => simp at hp
  | random => exact ⟨rfl, rfl⟩
  | reg | index | pc | sp | entry | dt | st | slot | byte | cell | keypad | reports | shrSource | started => rfl

theorem changesOnly_storeWord (s : State) (a : Addr) (w : Word) :
    changesOnly [.byte a, .byte (a + 0x001#12)] s (s.storeWord a w) :=
  changesOnly_append (changesOnly_writeByte s a _) (changesOnly_writeByte _ (a + 0x001#12) _)

/-- A 16-bit word loses nothing when it is cut to 16 bits. -/
theorem ofNat_toNat_mod (w : Word) : BitVec.ofNat 16 (w.toNat % 2 ^ 16) = w := by
  rw [Nat.mod_eq_of_lt w.isLt, BitVec.ofNat_toNat, BitVec.setWidth_eq]

/-- A word placed for the next step is the store of that word at PC, with a tick requested and reset released. -/
theorem withFetchWord_eq (s : State) (w : Word) :
    s.withFetchWord 16 w.toNat = { s.storeWord s.pc w with tickRequest := true, resetRequest := false } := by
  rw [State.withFetchWord, ofNat_toNat_mod]

/-- The host's reading of a word is the decoder's. -/
theorem decodeTableWord_toNat (w : Word) : decodeTableWord 16 w.toNat = some (decodeWord w) := by
  simp only [decodeTableWord, ofNat_toNat_mod, decodeBytes, wordOfBytes_high_low]

/-- Settles O12: the word is stored at PC, where the next step fetches it. -/
theorem placedWordIsFetchedNext : Obligations.PlacedWordIsFetchedNext := by
  intro s w
  rw [withFetchWord_eq]
  exact ⟨wordOfBytes_storeWord s s.pc w, ⟨rfl, fun _ => rfl⟩, decodeTableWord_toNat w,
    changesOnly_append (changesOnly_storeWord s s.pc w) (changesOnly_requests _ true false)⟩

/-! ## The unrecognized word and the key-wait as steps -/

theorem exec_unrecognized (w : Word) (s : State) : exec (.unrecognized w) s = .next (s.report w) := rfl

/-- A running step whose instruction answers `t` ends `t`'s slot. -/
theorem step_of_running_exec {s t : State} (h : s.running) (hexec : exec (decodeWord s.fetchWord) s.advancePc = .next t) :
    step s = .next t.endSlot := by
  obtain ⟨u, hu, hstep⟩ := step_of_running h
  rwa [Host.Outcome.next.inj (hexec.symm.trans hu)]

/-- Settles O51: the report, from any state and after the fetch's advance of PC. -/
theorem unrecognizedIsReportedNoOp : Obligations.UnrecognizedIsReportedNoOp := by
  refine ⟨fun w s => ⟨s.report w, exec_unrecognized w s, s.report_reports w, changesOnly_report s w⟩, fun s hrun hword => ?_⟩
  have hexec : exec (decodeWord s.fetchWord) s.advancePc = .next (s.advancePc.report s.fetchWord) := by
    rw [decodeWord_of_unrecognizedWord hword, exec_unrecognized]
  have hframe := changesOnly_append (changesOnly_advancePc s) (changesOnly_report s.advancePc s.fetchWord)
  exact ⟨_, step_of_running_exec hrun hexec, rfl, addr_add_two_toNat s.pc, changesOnly_mono hframe (by simp), endSlot_slot _⟩

/-- A pressed key below which none is pressed is the one the scan finds. -/
theorem lowestKey_eq_some {s : State} {k : KeyIdx} (hk : s.keyPressed k = true) (hleast : ∀ j, j < k → s.keyPressed j = false) :
    s.lowestKey = some k := by
  cases hscan : s.lowestKey with
  | none => simp [s.lowestKey_none.mp hscan k] at hk
  | some j =>
    obtain ⟨hj, hbelow⟩ := State.lowestKey_some hscan
    have hjk : ¬ j < k := fun hlt => by simp [hleast j hlt] at hj
    have hkj : ¬ k < j := fun hlt => by simp [hbelow k hlt] at hk
    rw [BitVec.le_antisymm (BitVec.not_lt.mp hkj) (BitVec.not_lt.mp hjk)]

/-- With a least key pressed `Fx0A` writes it to Vx (R142). -/
theorem exec_ldVxK_of_least_key (x : RegIdx) {s : State} {k : KeyIdx} (hk : s.keyPressed k = true)
    (hleast : ∀ j, j < k → s.keyPressed j = false) : exec (.ldVxK x) s = .next (s.setV x (k.setWidth 8)) := by
  simp [exec, execLdVxK, lowestKey_eq_some hk hleast]

/-- PC put back by 2, as a number: it wraps at address 0 (D3). -/
theorem retreatPc_toNat (s : State) : s.retreatPc.pc.toNat = (s.pc.toNat + 0xFFE) % 0x1000 := by
  simp only [State.retreatPc, State.setPc_pc, BitVec.toNat_sub, BitVec.toNat_ofNat]
  omega

/-- A key index widened to a byte is the same number. -/
theorem setWidth_key_toNat (k : KeyIdx) : (k.setWidth 8).toNat = k.toNat := by
  simp only [BitVec.toNat_setWidth]
  omega

/-- Settles O49: the scan finds the least key, or none; as a step the retreat undoes the fetch's advance. -/
theorem keyWaitTakesTheLeastKey : Obligations.KeyWaitTakesTheLeastKey := by
  intro x s
  refine ⟨decodeWord_encode (i := .ldVxK x) rfl, fun k hk hleast => ?_, fun hnone => ⟨?_, fun hrun hword => ?_⟩⟩
  · exact ⟨_, exec_ldVxK_of_least_key x hk hleast, by rw [getV_setV_self, setWidth_key_toNat], changesOnly_setV s x _⟩
  · exact ⟨_, exec_ldVxK_of_no_key x hnone, retreatPc_toNat s, changesOnly_retreatPc s⟩
  · have hexec := exec_ldVxK_advancePc_of_no_key x hnone
    rw [← hword] at hexec
    exact ⟨s, step_of_running_exec hrun hexec, changesOnly_refl [] s, endSlot_slot s⟩

end Sys2Proof.Proofs.Steps
end

