-- ==== Sys2Proof/Proofs/Contexts.lean ====
section
/-! PROOFS. What an instruction does not look at: the slot count, the note that a tick has begun, and every byte of Memory it does not
read (20_memory.md R41). One lemma runs an instruction from the same core in another context of these three. -/

namespace Sys2Proof.Proofs.Contexts

open Sys2Proof Sys2Proof.Machine Sys2Proof.Proofs.Frames Sys2Proof.Proofs.Sprites Sys2Proof.Proofs.Writers

/-- The same state with another Memory, slot count and note whether a tick has begun. -/
def inContext (s : State) (m : Memory) (slot : Nat) (started : Bool) : State :=
  { s with mem := m, slot := slot, started := started }

/-- An instruction that answers `t` from `s` runs alike in another context: it answers `t` in a context with the same slot count and note, whose
Memory holds what `t`'s does wherever the two agreed before. -/
def RunsAlike (i : Instr) (s t : State) (m : Memory) (slot : Nat) (started : Bool) : Prop :=
  ∃ m', exec i (inContext s m slot started) = .next (inContext t m' slot started)
    ∧ (∀ a : Addr, m.read a.toNat = s.readByte a → m'.read a.toNat = t.readByte a) ∧ (m = s.mem → m' = t.mem)

section
variable {i : Instr} {s t : State} (m : Memory) (slot : Nat) (started : Bool)

/-- An instruction that leaves Memory alone. -/
theorem runsAlike_of_mem (hmem : t.mem = s.mem) (h : exec i (inContext s m slot started) = .next (inContext t m slot started)) :
    RunsAlike i s t m slot started :=
  ⟨m, h, fun a ha => by rwa [State.readByte, hmem], fun hm => hm.trans hmem.symm⟩

/-! ## Skips, stores and loads in a context -/

theorem skipIf_mem (s : State) (c : Bool) : (s.skipIf c).mem = s.mem := by
  cases c <;> rfl

theorem skipIf_inContext (s : State) (c : Bool) :
    (inContext s m slot started).skipIf c = inContext (s.skipIf c) m slot started := by
  cases c <;> rfl

theorem runsAlike_skipIf (c : Bool) (h : exec i (inContext s m slot started) = .next ((inContext s m slot started).skipIf c)) :
    RunsAlike i s (s.skipIf c) m slot started :=
  runsAlike_of_mem m slot started (skipIf_mem s c) (h.trans (congrArg _ (skipIf_inContext m slot started s c)))

/-- A list of stores on Memory alone. -/
def storeCells (f : Nat → Addr) (cells : List (Nat × Byte)) (m : Memory) : Memory :=
  cells.foldl (fun m c => m.write (f c.1).toNat c.2) m

theorem read_storeCells_congr (f : Nat → Addr) (cells : List (Nat × Byte)) (j : Nat) :
    ∀ {m m' : Memory}, m.read j = m'.read j → (storeCells f cells m).read j = (storeCells f cells m').read j := by
  induction cells with
  | nil => exact id
  | cons c cells ih => exact fun h => ih (by rw [Memory.read_write, Memory.read_write, h])

theorem foldl_writeByte_inContext (f : Nat → Addr) (cells : List (Nat × Byte)) : ∀ m : Memory,
    cells.foldl (fun t c => t.writeByte (f c.1) c.2) (inContext s m slot started)
      = inContext s (storeCells f cells m) slot started := by
  induction cells with
  | nil => exact fun _ => rfl
  | cons c cells ih => exact fun m => ih (m.write (f c.1).toNat c.2)

/-- Stores at I are the same stores in any context. -/
theorem storeAtI_inContext (s : State) (cells : List (Nat × Byte)) :
    (inContext s m slot started).storeAtI cells = inContext s (storeCells s.dataAddr cells m) slot started :=
  foldl_writeByte_inContext slot started s.dataAddr cells m

theorem runsAlike_storeAtI (cells : List (Nat × Byte))
    (h : exec i (inContext s m slot started) = .next ((inContext s m slot started).storeAtI cells)) :
    RunsAlike i s (s.storeAtI cells) m slot started := by
  have hs : s.storeAtI cells = inContext s (storeCells s.dataAddr cells s.mem) s.slot s.started :=
    storeAtI_inContext s.mem s.slot s.started s cells
  refine ⟨storeCells s.dataAddr cells m, ?_, fun a ha => ?_, fun hm => ?_⟩
  · rw [h, storeAtI_inContext, hs]
    rfl
  · rw [hs]
    exact read_storeCells_congr s.dataAddr cells a.toNat ha
  · rw [hs, hm]
    rfl

theorem foldl_setV_inContext (f : RegIdx → Byte) (rs : List RegIdx) : ∀ s : State,
    rs.foldl (fun t r => t.setV r (f r)) (inContext s m slot started)
      = inContext (rs.foldl (fun t r => t.setV r (f r)) s) m slot started := by
  induction rs with
  | nil => exact fun _ => rfl
  | cons r rs ih => exact fun s => ih (s.setV r (f r))

/-- A load at I is the same load where the bytes it reads are the same. -/
theorem loadAtI_inContext {rs : List RegIdx}
    (hread : ∀ r ∈ rs, m.read (s.dataAddr r.toNat).toNat = s.readByte (s.dataAddr r.toNat)) :
    (inContext s m slot started).loadAtI rs = inContext (s.loadAtI rs) m slot started := by
  have hbytes : (inContext s m slot started).loadAtI rs
      = rs.foldl (fun t r => t.setV r (s.readByte (s.dataAddr r.toNat))) (inContext s m slot started) :=
    List.foldl_ext _ _ _ fun t r hr => congrArg (t.setV r) (hread r hr)
  rw [hbytes, foldl_setV_inContext]
  rfl

/-! ## The addresses an instruction reads -/

theorem mem_readAddrs_read {α : Type} {f : α → Addr} {xs : List α} {a : Addr} :
    a ∈ (xs.map (fun x => MemAccess.read (f x))).filterMap (fun a => match a with | .read a => some a | .write _ _ => none)
      ↔ ∃ x ∈ xs, a = f x := by
  simp [eq_comm]

theorem mem_readAddrs_loadRegs {x : RegIdx} {a : Addr} :
    a ∈ readAddrs (.loadRegs x) s ↔ ∃ r ∈ regRange x, a = s.dataAddr r.toNat := mem_readAddrs_read

/-- `Dxyn` reads the byte of each row on the screen (R132, D18). -/
theorem mem_readAddrs_drw {x y : RegIdx} {n : BitVec 4} {row : Nat} (hrow : row < n.toNat) (hclip : originRow (s.getV y) + row < 32) :
    s.dataAddr row ∈ readAddrs (.drw x y n) s := by
  refine mem_readAddrs_read.mpr ⟨row, List.mem_range.mpr ?_, rfl⟩
  rw [drawnRows, Config.dispRows]
  omega

/-- A drawing is the same where the bytes of its rows are the same. -/
theorem drawn_inContext {x y : RegIdx} {n : BitVec 4}
    (hread : ∀ a ∈ readAddrs (.drw x y n) s, m.read a.toNat = s.readByte a) :
    drawn (inContext s m slot started) x y n = inContext (drawn s x y n) m slot started := by
  have hcells : cellsOf (inContext s m slot started) x y n = cellsOf s x y n :=
    spriteCells_congr fun row hrow hclip => hread _ (mem_readAddrs_drw (List.mem_range.mp hrow) hclip)
  have hdrawing : drawing (inContext s m slot started) x y n = drawing s x y n := congrArg (Canvas.plotAll _) hcells
  rw [drawn, drawn, hdrawing]
  rfl

/-! ## Every instruction -/

/-- An instruction runs alike in every context that holds the bytes it reads. -/
theorem exec_runsAlike (h : exec i s = .next t) (hread : ∀ a ∈ readAddrs i s, m.read a.toNat = s.readByte a) :
    RunsAlike i s t m slot started := by
  cases i with
  | cls | ret | jp | call | ldImm | addImm | ldReg | orReg | andReg | xorReg | addReg | subReg | shrReg | subnReg | shlReg | ldI | jpV0 | rnd
  | ldVxDt | ldDtVx | ldStVx | addI | ldF | unrecognized =>
    obtain rfl := Host.Outcome.next.inj h
    exact runsAlike_of_mem m slot started rfl rfl
  | seImm | sneImm | seReg | sneReg | skp | sknp =>
    obtain rfl := Host.Outcome.next.inj h
    exact runsAlike_skipIf m slot started _ rfl
  | drw x y n =>
    obtain rfl := Host.Outcome.next.inj ((exec_drw x y n s).symm.trans h)
    exact runsAlike_of_mem m slot started rfl ((exec_drw x y n _).trans (congrArg _ (drawn_inContext m slot started hread)))
  | ldVxK x =>
    have hscan : (inContext s m slot started).lowestKey = s.lowestKey := rfl
    simp only [exec, execLdVxK] at h
    split at h
    · next k hk =>
      obtain rfl := Host.Outcome.next.inj h
      exact runsAlike_of_mem m slot started rfl (by rw [exec, execLdVxK, hscan, hk]; rfl)
    · next hk =>
      obtain rfl := Host.Outcome.next.inj h
      exact runsAlike_of_mem m slot started rfl (by rw [exec, execLdVxK, hscan, hk]; rfl)
  | ldB | storeRegs =>
    obtain rfl := Host.Outcome.next.inj h
    exact runsAlike_storeAtI m slot started _ rfl
  | loadRegs x =>
    obtain rfl := Host.Outcome.next.inj h
    have hbytes : ∀ r ∈ regRange x, m.read (s.dataAddr r.toNat).toNat = s.readByte (s.dataAddr r.toNat) :=
      fun r hr => hread _ (mem_readAddrs_loadRegs.mpr ⟨r, hr, rfl⟩)
    have hmem : (s.loadAtI (regRange x)).mem = s.mem := by rw [s.loadAtI_eq]
    exact runsAlike_of_mem m slot started hmem (congrArg _ (loadAtI_inContext m slot started hbytes))

end

/-! ## The statement -/

/-- Parts that are no byte of Memory agree in another context with the same slot count and note. -/
theorem agreeOn_inContext (s : State) (m : Memory) {p : StatePart} (h : ∀ a, p ≠ .byte a) :
    agreeOn p s (inContext s m s.slot s.started) := by
  cases p with
  | byte a => exact absurd rfl (h a)
  | random => exact ⟨rfl, rfl⟩
  | host => exact ⟨rfl, rfl, rfl, rfl⟩
  | reg | index | pc | sp | entry | dt | st | slot | cell | keypad | reports | shrSource | started => rfl

/-- Settles O40: another Memory is a context, in which the instruction runs alike. -/
theorem onlyTheBytesReadMatter : Obligations.OnlyTheBytesReadMatter := by
  intro i s t m h hread
  obtain ⟨m', hexec, hbytes, -⟩ := exec_runsAlike m s.slot s.started h hread
  have hkeeps := execKeeps_of_exec h
  have hown : inContext t m' s.slot s.started = inContext t m' t.slot t.started := by rw [hkeeps.slot, hkeeps.started]
  exact ⟨_, hexec.trans (congrArg _ hown), fun p hp => agreeOn_inContext t m' hp, hbytes⟩

end Sys2Proof.Proofs.Contexts
end

