-- ==== Sys2Proof/Proofs/Ticks.lean ====
section
/-! PROOFS. The whole tick (40_cycle.md R85): the machine's steps inside a tick are instruction steps in the context of the slots
already counted, and the eleventh closes the tick. -/

namespace Sys2Proof.Proofs.Ticks

open Sys2Proof Sys2Proof.Machine Sys2Proof.Proofs.Frames Sys2Proof.Proofs.Writers Sys2Proof.Proofs.Steps Sys2Proof.Proofs.Contexts

/-- A state inside a tick of which `j` slots are executed. -/
def inTick (j : Nat) (s : State) : State := s.markStarted.setSlot j

/-- A tick closed after its last slot: the timer step and the host's frame. -/
def closeTick (s : State) : State := (s.markStarted.timerStep.setSlot 0).hostFrame

/-! ## Instruction steps -/

/-- An instruction step completes, and releases no reset. -/
theorem instructionStep_completes (s : State) :
    ∃ t, s.instructionStep = .next t ∧ t.slot = s.slot ∧ t.resetRequest = s.resetRequest := by
  obtain ⟨t, ht, hkeeps⟩ := exec_next (decodeWord s.fetchWord) s.advancePc
  exact ⟨t, ht, hkeeps.slot, hkeeps.resetRequest⟩

/-- An instruction step does not look at the slot count or at the note that a tick has begun. -/
theorem instructionStep_inTick {s t : State} (h : s.instructionStep = .next t) (j : Nat) :
    (inTick j s).instructionStep = .next (inTick j t) := by
  obtain ⟨m', hexec, -, hmem⟩ := exec_runsAlike s.mem j true h fun _ _ => rfl
  rw [hmem rfl] at hexec
  exact hexec

/-- Instruction steps one after another, the first taken apart. -/
theorem instructionSteps_succ {s t : State} (h : s.instructionStep = .next t) (n : Nat) :
    State.instructionSteps (n + 1) s = State.instructionSteps n t := by
  rw [State.instructionSteps, h]

theorem instructionSteps_completes (n : Nat) : ∀ s : State, ∃ u, State.instructionSteps n s = .next u := by
  induction n with
  | zero => exact fun s => ⟨s, rfl⟩
  | succ n ih =>
    intro s
    obtain ⟨t, ht, -⟩ := instructionStep_completes s
    rw [instructionSteps_succ ht]
    exact ih t

/-! ## Machine steps -/

/-- A run of steps, the first taken apart. -/
theorem run_succ {s t : State} (h : step s = .next t) (n : Nat) :
    Host.Core.run Sys2Proof.core (n + 1) s = Host.Core.run Sys2Proof.core n t := by
  have hcore : Sys2Proof.core.step s = .next t := h
  simp only [Host.Core.run, hcore]

/-- A step inside a tick is the instruction step, its slot counted or the tick closed. -/
theorem step_inTick {s t : State} {j : Nat} (hj : 0 < j) (hreset : s.resetRequest = false) (h : s.instructionStep = .next t) :
    step (inTick j s) = .next (if j + 1 < 11 then inTick (j + 1) t else closeTick t) := by
  have hrun : (inTick j s).running := ⟨hreset, fun hslot => absurd hslot hj.ne'⟩
  rw [step_of_running_exec hrun (instructionStep_inTick h j)]
  split
  · next hlt => rw [endSlot_of_lt (s := inTick j t) hlt]; rfl
  · next hge => rw [endSlot_of_ge (s := inTick j t) (Nat.le_of_not_lt hge)]; rfl

/-- From inside a tick the machine runs through the slots left and closes the tick. -/
theorem run_inTick (k : Nat) : ∀ {j : Nat} {s u : State}, 0 < j → j + (k + 1) = 11 → s.resetRequest = false →
    State.instructionSteps (k + 1) s = .next u → Host.Core.run Sys2Proof.core (k + 1) (inTick j s) = .next (closeTick u) := by
  induction k with
  | zero =>
    intro j s u hj hlast hreset hsteps
    obtain ⟨t, ht, -⟩ := instructionStep_completes s
    obtain rfl : t = u := Host.Outcome.next.inj (instructionSteps_succ ht 0 ▸ hsteps)
    have hstep := step_inTick hj hreset ht
    rw [if_neg (by omega)] at hstep
    exact run_succ hstep 0
  | succ k ih =>
    intro j s u hj hleft hreset hsteps
    obtain ⟨t, ht, -, hkept⟩ := instructionStep_completes s
    have hstep := step_inTick hj hreset ht
    rw [if_pos (by omega)] at hstep
    rw [run_succ hstep]
    exact ih (Nat.succ_pos j) (by omega) (hkept.trans hreset) (instructionSteps_succ ht _ ▸ hsteps)

/-- The first step of a tick is an instruction step, one slot counted. -/
theorem step_first_of_tick {s t : State} (hslot : s.slot = 0) (hrun : s.running) (h : s.instructionStep = .next t)
    (htslot : t.slot = s.slot) : step s = .next (inTick 1 t) := by
  rw [step_of_running_exec hrun h, endSlot_of_lt (by omega), htslot, hslot]
  rfl

/-- The 11 steps of the machine that begin a tick are 11 instruction steps and the tick's close. -/
theorem run_tick {s u : State} (hslot : s.slot = 0) (hrun : s.running) (h : State.instructionSteps 11 s = .next u) :
    Host.Core.run Sys2Proof.core 11 s = .next (closeTick u) := by
  obtain ⟨t, ht, htslot, hkept⟩ := instructionStep_completes s
  rw [run_succ (step_first_of_tick hslot hrun ht htslot)]
  exact run_inTick 9 Nat.one_pos rfl (hkept.trans hrun.1) (instructionSteps_succ ht _ ▸ h)

/-! ## What the tick's close leaves -/

/-- A countdown as the spec writes it (R160). -/
theorem countDown_toNat_ite (t : Byte) : (countDown t).toNat = if t.toNat > 0 then t.toNat - 1 else 0 := by
  rw [countDown_toNat]
  split <;> omega

/-- Instruction steps do not count slots. -/
theorem slot_of_instructionSteps (n : Nat) : ∀ {s u : State}, State.instructionSteps n s = .next u → u.slot = s.slot := by
  induction n with
  | zero => rintro s u h; rw [Host.Outcome.next.inj h]
  | succ n ih =>
    intro s u h
    obtain ⟨t, ht, hslot, -⟩ := instructionStep_completes s
    exact (ih (instructionSteps_succ ht n ▸ h)).trans hslot

/-- The close changes the timers, the key levels, the host's frames and the note, and sets the slot count to 0. -/
theorem changesOnly_closeTick {u : State} (hslot : u.slot = 0) :
    changesOnly [.dt, .st, .keypad, .host, .started] u (closeTick u) := by
  have hslots : u.markStarted.timerStep.setSlot 0 = u.markStarted.timerStep := by
    rw [← hslot]; rfl
  rw [closeTick, hslots]
  exact changesOnly_mono (changesOnly_append (changesOnly_append (changesOnly_markStarted u) (changesOnly_timerStep _))
    (changesOnly_hostFrame _)) (by simp)

/-- Settles O8: the machine's 11 steps are the 11 instruction steps and the close, by `run_tick`; the rest reads the close's fields. -/
theorem tickIsElevenStepsThenTheTimers : Obligations.TickIsElevenStepsThenTheTimers := by
  intro s hslot hrun
  obtain ⟨u, hu⟩ := instructionSteps_completes 11 s
  have htick : s.tick = .next u.timerStep.markStarted := by rw [State.tick, hu]
  exact ⟨u, closeTick u, hu, run_tick hslot hrun hu, countDown_toNat_ite u.dt, countDown_toNat_ite u.st, rfl, rfl, rfl, rfl, rfl,
    fun k ks hks => ⟨nextKeys_of_listed hks, congrArg List.tail hks⟩, rfl, rfl,
    changesOnly_closeTick ((slot_of_instructionSteps 11 hu).trans hslot), htick, changesOnly_timerStep u⟩

end Sys2Proof.Proofs.Ticks
end

