-- ==== Sys2Proof/Proofs/HostMoves.lean ====
section
/-! PROOFS. The host's moves (10_state.md section 9, 70_reset_and_hazards.md section 2): the bytes a load leaves, when each move is given, and
that loading ends with the first tick. -/

namespace Sys2Proof.Proofs.HostMoves

open Sys2Proof Sys2Proof.Machine Sys2Proof.Proofs.Frames Sys2Proof.Proofs.Steps Sys2Proof.Proofs.Ticks Sys2Proof.Proofs.IndexMemory

/-! ## Loading bytes -/

/-- A load leaves at each address the byte loaded there, and the old byte where none is: no later byte overwrites an earlier one as
long as the bytes go round Memory at most once. -/
theorem readByte_loadBytes (bs : List Byte) : ∀ (s : State) (a : Addr), bs.length ≤ 4096 → ∀ b : Addr,
    (s.loadBytes a bs).readByte b = bs[(b - a).toNat]?.getD (s.readByte b) := by
  induction bs with
  | nil => intro s a _ b; rfl
  | cons c cs ih =>
    intro s a hlen b
    have hlen' : cs.length + 1 ≤ 4096 := hlen
    rw [State.loadBytes, ih _ _ (by omega), State.readByte_writeByte]
    by_cases hb : b = a
    · subst hb
      have hlast : (b - (b + 0x001#12)).toNat = 4095 := by bv_omega
      rw [hlast, List.getElem?_eq_none (by omega), if_pos rfl, BitVec.sub_self]
      rfl
    · have hnext : (b - a).toNat = (b - (a + 0x001#12)).toNat + 1 := by bv_omega
      rw [if_neg hb, hnext, List.getElem?_cons_succ]

/-- A load changes bytes of Memory alone. -/
theorem agreeOn_loadBytes {p : StatePart} (hp : ∀ a, p ≠ .byte a) (bs : List Byte) : ∀ (s : State) (a : Addr),
    agreeOn p s (s.loadBytes a bs) := by
  induction bs with
  | nil => exact fun s _ => agreeOn_refl p s
  | cons b bs ih =>
    exact fun s a => agreeOn_trans (changesOnly_writeByte s a b p (by simpa using hp a)) (ih _ (a + 0x001#12))

/-! ## When a move is given -/

theorem betweenTicks_iff (s : State) : s.betweenTicks = true ↔ s.slot = 0 := beq_iff_eq

theorem beforeFirstTick_iff (s : State) : s.beforeFirstTick = true ↔ s.slot = 0 ∧ s.started = false := by
  simp [State.beforeFirstTick, betweenTicks_iff]

/-- Once a tick has begun, or within one, it is not before the first. -/
theorem beforeFirstTick_eq_false {s : State} (h : s.slot ≠ 0 ∨ s.started = true) : s.beforeFirstTick = false := by
  rw [← Bool.not_eq_true, beforeFirstTick_iff]
  rintro ⟨hslot, hstarted⟩
  simp [hslot, hstarted] at h

theorem loadProgram_of_fits {s : State} {bs : List Byte} (hslot : s.slot = 0) (hstarted : s.started = false) (hlen : bs.length ≤ 3584) :
    s.loadProgram bs = some (s.loadBytes 0x200#12 bs) := by
  have hbefore := (beforeFirstTick_iff s).mpr ⟨hslot, hstarted⟩
  simp [State.loadProgram, hbefore, hlen]

theorem loadFont_of_before {s : State} (font : Vector Byte 80) (hslot : s.slot = 0) (hstarted : s.started = false) :
    s.loadFont font = some (s.loadBytes 0x000#12 font.toList) := if_pos ((beforeFirstTick_iff s).mpr ⟨hslot, hstarted⟩)

/-- Within a tick, or once one has begun, the host loads nothing. -/
theorem loads_eq_none {s : State} (h : s.slot ≠ 0 ∨ s.started = true) (bs : List Byte) (font : Vector Byte 80) :
    s.loadProgram bs = none ∧ s.loadFont font = none := by
  simp [State.loadProgram, State.loadFont, beforeFirstTick_eq_false h]

/-! ## The statements about loads -/

/-- Settles O42: the bytes by `readByte_loadBytes`, whose block from 0x200 ends before it goes round Memory. -/
theorem loadedProgramStandsFrom200 : Obligations.LoadedProgramStandsFrom200 := by
  refine fun bs s => ⟨fun hslot hstarted hlen => ?_, fun hlong => ?_⟩
  · have hread := readByte_loadBytes bs s 0x200#12 (by omega)
    refine ⟨_, loadProgram_of_fits hslot hstarted hlen, fun j hj => ?_, fun a ha => ?_, fun p hp => agreeOn_loadBytes hp bs s _⟩
    · have hoffset : (BitVec.ofNat 12 (0x200 + j) - 0x200#12).toNat = j := by
        simp only [BitVec.toNat_sub, BitVec.toNat_ofNat]
        omega
      rw [hread, hoffset, List.getElem?_eq_getElem hj, Option.getD_some]
    · have houtside : bs.length ≤ (a - 0x200#12).toNat := by
        simp only [BitVec.toNat_sub, BitVec.toNat_ofNat]
        omega
      rw [hread, List.getElem?_eq_none houtside, Option.getD_none]
  · simp [State.loadProgram, Nat.not_le.mpr hlong]

/-- The byte of row `row` of the glyph `Fx29` points at is the font's, its index being below 80. -/
theorem glyph_byte_of_font (s : State) (font : Vector Byte 80) (b : Byte) {row : Nat} (hrow : row < 5) :
    font[5 * (b.toNat % 16) + row]? = some ((s.loadBytes 0x000#12 font.toList).readByte (glyphAddr b + BitVec.ofNat 12 row)) := by
  have hoffset : (glyphAddr b + BitVec.ofNat 12 row - 0x000#12).toNat = 5 * (b.toNat % 16) + row := by
    rw [BitVec.sub_zero, BitVec.toNat_add, glyphAddr_toNat, BitVec.toNat_ofNat]
    omega
  have hlt : 5 * (b.toNat % 16) + row < 80 := by omega
  rw [readByte_loadBytes font.toList s _ (by simp), hoffset, Vector.getElem?_toList, Vector.getElem?_eq_getElem hlt, Option.getD_some]

/-- Settles O43: a load keeps Vx, and the glyph's bytes are the font's by `glyph_byte_of_font`. -/
theorem digitAddressIsTheLoadedGlyph : Obligations.DigitAddressIsTheLoadedGlyph := by
  intro font x s hslot hstarted
  have hx : (s.loadBytes 0x000#12 font.toList).getV x = s.getV x := agreeOn_loadBytes (p := .reg x) (by simp) _ s _
  refine ⟨_, _, loadFont_of_before font hslot hstarted, exec_ldF x _, fun row hrow => ?_⟩
  rw [hx]
  exact glyph_byte_of_font s font (s.getV x) hrow

/-! ## The other moves -/

/-- The snapshot lists the cells in the order of their indices (R33). -/
theorem getElem?_snapshot (d : Display) {k : Nat} (hk : k < 2048) :
    ((List.range Config.dispCells).map (pixel d))[k]? = some (pixel d k) := by
  simp [hk]

/-- A write of the key levels changes them alone. -/
theorem changesOnly_keys (s : State) (keys : Keypad) : changesOnly [.keypad] s { s with keys := keys } := by
  intro p hp
  cases p with
  | keypad => simp at hp
  | random => exact ⟨rfl, rfl⟩
  | host => exact ⟨rfl, rfl, rfl, rfl⟩
  | reg | index | pc | sp | entry | dt | st | slot | byte | cell | reports | shrSource | started => rfl

/-- Settles O57: each move's own guard, and the frame of what it writes. -/
theorem hostMovesOnlyBetweenTicks : Obligations.HostMovesOnlyBetweenTicks := by
  intro s keys on bs font
  refine ⟨fun hslot => ?_, fun h => loads_eq_none h bs font, fun hslot => ?_, rfl, rfl, rfl, rfl, changesOnly_requests s _ true⟩
  · have hno : ¬ s.betweenTicks = true := (betweenTicks_iff s).not.mpr hslot
    exact ⟨if_neg hno, if_neg hno, if_neg hno⟩
  · have hyes := (betweenTicks_iff s).mpr hslot
    exact ⟨⟨_, if_pos hyes, rfl, changesOnly_keys s keys⟩, ⟨_, if_pos hyes, rfl, rfl, rfl, rfl, changesOnly_requests s on _⟩,
      ⟨_, if_pos hyes, by simp, fun _ => getElem?_snapshot s.display⟩⟩

/-! ## Loading ends with the first tick -/

/-- After a step from a state that runs or has begun its first tick, a tick has begun. -/
theorem started_of_step {s t : State} (h : s.running ∨ s.started = true) (hstep : step s = .next t) : t.started = true := by
  rcases step_next_cases hstep with ⟨hreset, rfl⟩ | ⟨hidle, rfl⟩ | ⟨-, u, -, rfl⟩
  · refine h.resolve_left fun hrun => ?_
    simp [hrun.1] at hreset
  · exact h.resolve_left hidle
  · exact u.endSlot_started

/-- The same for a run of one or more steps. -/
theorem started_of_run (n : Nat) : ∀ {s t : State}, s.running ∨ s.started = true →
    Host.Core.run Sys2Proof.core (n + 1) s = .next t → t.started = true := by
  induction n with
  | zero =>
    intro s t h hrun
    obtain ⟨u, hu⟩ := Cycle.step_completes s
    obtain rfl : u = t := Host.Outcome.next.inj ((run_succ hu 0).symm.trans hrun)
    exact started_of_step h hu
  | succ n ih =>
    intro s t h hrun
    obtain ⟨u, hu⟩ := Cycle.step_completes s
    exact ih (.inr (started_of_step h hu)) ((run_succ hu (n + 1)).symm.trans hrun)

/-- Settles O58: a tick once begun stays begun, by induction over the run; a step that is no slot is a reset or idles. -/
theorem memoryIsLoadedBeforeTheFirstTickAlone : Obligations.MemoryIsLoadedBeforeTheFirstTickAlone := by
  refine ⟨fun n s t h hrun => ?_, fun s t hno hstep => ?_⟩
  · have hstarted := started_of_run n h hrun
    exact ⟨hstarted, loads_eq_none (.inr hstarted)⟩
  · rcases step_next_cases hstep with ⟨-, rfl⟩ | ⟨-, rfl⟩ | ⟨hrun, -⟩
    · exact ⟨s.takeReset_started, s.readByte_takeReset⟩
    · exact ⟨rfl, fun _ => rfl⟩
    · exact absurd hrun hno

end Sys2Proof.Proofs.HostMoves
end

