-- ==== Sys2Proof/Proofs/CanonicalMemory.lean ====
section
/-! PROOFS. The canonical form of Memory (log entry 7): equal contents are equal data. -/

namespace Sys2Proof.Proofs.CanonicalMemory

open Sys2Proof Sys2Proof.Machine

theorem wfFrom_cons {low k : Nat} {b : Byte} {m : Memory} : Memory.wfFrom low ((k, b) :: m) = true
    ↔ low ≤ k ∧ k < 4096 ∧ b ≠ Memory.unlisted ∧ Memory.wfFrom (k + 1) m = true := by
  simp [Memory.wfFrom, and_assoc]

/-- Below the lowest address of the form every address is unlisted. -/
theorem read_below {m : Memory} {a : Nat} : ∀ {low : Nat}, Memory.wfFrom low m = true → a < low → m.read a = Memory.unlisted := by
  induction m with
  | nil => exact fun _ _ => rfl
  | cons c m ih =>
    obtain ⟨k, b⟩ := c
    intro low hwf ha
    obtain ⟨hlow, -, -, htail⟩ := wfFrom_cons.mp hwf
    rw [Memory.read, if_neg (by omega)]
    exact ih htail (by omega)

/-- A memory that reads alike does not start above another's first entry. -/
theorem not_wfFrom_above {low k : Nat} {b : Byte} {m m' : Memory} (hwf : Memory.wfFrom low ((k, b) :: m) = true)
    (hread : ∀ a, Memory.read ((k, b) :: m) a = m'.read a) : ¬ Memory.wfFrom (k + 1) m' = true := by
  intro habove
  obtain ⟨-, -, hb, -⟩ := wfFrom_cons.mp hwf
  have hk := hread k
  rw [read_below habove (Nat.lt_succ_self k), Memory.read, if_pos rfl] at hk
  exact hb hk

/-- Canonical memories that read alike have the same entries, first entry by first entry. -/
theorem eq_of_read_eq {m : Memory} : ∀ {low : Nat} {m' : Memory}, Memory.wfFrom low m = true → Memory.wfFrom low m' = true →
    (∀ a, m.read a = m'.read a) → m = m' := by
  induction m with
  | nil =>
    intro low m' _ hwf' hread
    cases m' with
    | nil => rfl
    | cons c' m' => exact absurd rfl (not_wfFrom_above hwf' fun a => (hread a).symm)
  | cons c m ih =>
    obtain ⟨k, b⟩ := c
    intro low m' hwf hwf' hread
    obtain ⟨-, hk, hb, htail⟩ := wfFrom_cons.mp hwf
    cases m' with
    | nil => exact absurd rfl (not_wfFrom_above hwf hread)
    | cons c' m' =>
      obtain ⟨k', b'⟩ := c'
      obtain ⟨-, hk', hb', htail'⟩ := wfFrom_cons.mp hwf'
      have hle : k' ≤ k := by
        by_contra hlt
        exact not_wfFrom_above hwf hread (wfFrom_cons.mpr ⟨by omega, hk', hb', htail'⟩)
      have hge : k ≤ k' := by
        by_contra hlt
        exact not_wfFrom_above hwf' (fun a => (hread a).symm) (wfFrom_cons.mpr ⟨by omega, hk, hb, htail⟩)
      obtain rfl := Nat.le_antisymm hle hge
      obtain rfl : b = b' := by simpa [Memory.read] using hread k'
      refine congrArg _ (ih htail htail' fun a => ?_)
      by_cases ha : a = k'
      · rw [read_below htail (by omega), read_below htail' (by omega)]
      · simpa [Memory.read, Ne.symm ha] using hread a

/-- Settles O41: by `eq_of_read_eq` from address 0. -/
theorem memoriesThatReadAlikeAreEqual : Obligations.MemoriesThatReadAlikeAreEqual := fun _ _ => eq_of_read_eq

end Sys2Proof.Proofs.CanonicalMemory
end

