-- ==== Sys2Proof/Proofs/CallsAndSkips.lean ====
section
/-! PROOFS. Calls and returns, skips and the indexed jump (41_control_flow.md, 45_keypad_timers.md section 1). -/

namespace Sys2Proof.Proofs.CallsAndSkips

open Sys2Proof Sys2Proof.Machine Sys2Proof.Proofs.Encoding Sys2Proof.Proofs.Frames Sys2Proof.Proofs.Steps Sys2Proof.Proofs.ControlFlow

/-! ## Calls and returns -/

theorem exec_ret (s : State) : exec .ret s = .next s.popPc := rfl

theorem exec_call (nnn : Addr) (s : State) : exec (.call nnn) s = .next (s.pushPc.setPc nnn) := rfl

/-- Settles O19: the return is a pop. -/
theorem returnPopsTheStack : Obligations.ReturnPopsTheStack := by
  intro s
  have hsp : s.popPc.sp.toNat = (s.sp.toNat + 15) % 16 := by
    simp only [State.popPc_sp, BitVec.toNat_sub, BitVec.toNat_ofNat]
    omega
  exact ⟨by decide, s.popPc, exec_ret s, hsp, rfl, changesOnly_popPc s⟩

/-- A call changes the entry SP named, SP and PC. -/
theorem changesOnly_call (s : State) (nnn : Addr) : changesOnly [.entry s.sp, .sp, .pc] s (s.pushPc.setPc nnn) :=
  changesOnly_append (changesOnly_pushPc s) (changesOnly_setPc _ nnn)

/-- Settles O20: the call is a push and a jump. -/
theorem callPushesTheReturnAddress : Obligations.CallPushesTheReturnAddress := fun nnn s =>
  ⟨decodeWord_encode (i := .call nnn) rfl, s.pushPc.setPc nnn, exec_call nnn s, (s.stack_pushPc s.sp).trans (if_pos rfl),
    BitVec.toNat_add s.sp 0x1#4, rfl, changesOnly_call s nnn⟩

/-- A run of instructions continued. -/
theorem execAll_append {is : List Instr} : ∀ {s t : State}, execAll is s = .next t → ∀ js, execAll (is ++ js) s = execAll js t := by
  induction is with
  | nil =>
    intro s t h js
    rw [Host.Outcome.next.inj h, List.nil_append]
  | cons i is ih =>
    intro s t h js
    obtain ⟨u, hu, -⟩ := exec_next i s
    simp only [execAll, hu, List.cons_append] at h ⊢
    exact ih h js

/-- A chain of calls and as many returns restores PC and SP, and overwrites no entry but those of the ring from SP up that the calls
pushed to; there are at most 16 calls, so none of them overwrites a return address still needed. -/
theorem calls_then_returns (targets : List Addr) : ∀ s : State, targets.length ≤ 16 →
    ∃ t, execAll (targets.map Instr.call ++ List.replicate targets.length Instr.ret) s = .next t ∧ t.pc = s.pc ∧ t.sp = s.sp
      ∧ ∀ k : StackPtr, targets.length ≤ (k - s.sp).toNat → agreeOn (.entry k) s t := by
  induction targets with
  | nil => exact fun s _ => ⟨s, rfl, rfl, rfl, fun k _ => agreeOn_refl (.entry k) s⟩
  | cons nnn targets ih =>
    intro s hlen
    have hlen' : targets.length + 1 ≤ 16 := hlen
    obtain ⟨t, hrun, -, hsp, hkept⟩ := ih (s.pushPc.setPc nnn) (by omega)
    have hlist : (nnn :: targets).map Instr.call ++ List.replicate (nnn :: targets).length Instr.ret
        = .call nnn :: ((targets.map Instr.call ++ List.replicate targets.length Instr.ret) ++ [.ret]) := by
      rw [List.length_cons, List.replicate_succ', List.map_cons, List.cons_append, List.append_assoc]
    have hsp' : t.sp = s.sp + 0x1#4 := hsp
    have hpopped : t.sp - 0x1#4 = s.sp := by rw [hsp', BitVec.add_sub_cancel]
    have hreturn : t.stack[s.sp.toNat]'(s.sp.isLt) = s.pc := by
      have hring : targets.length ≤ (s.sp - (s.sp + 0x1#4)).toNat := by bv_omega
      exact (hkept s.sp hring).trans ((s.stack_pushPc s.sp).trans (if_pos rfl))
    refine ⟨t.popPc, ?_, ?_, hpopped, fun k hk => ?_⟩
    · rw [hlist, execAll, exec_call]
      exact execAll_append hrun [.ret]
    · rw [State.popPc_pc, ← hreturn]
      simp only [hpopped]
    · have hk' : targets.length + 1 ≤ (k - s.sp).toNat := hk
      have hne : k ≠ s.sp := by rintro rfl; simp at hk'
      have hring : targets.length ≤ (k - (s.sp + 0x1#4)).toNat := by bv_omega
      exact (hkept k hring).trans ((s.stack_pushPc k).trans (if_neg hne))

/-- Settles O21: by `calls_then_returns`. -/
theorem sixteenNestedCallsAllReturn : Obligations.SixteenNestedCallsAllReturn := by
  intro targets s hlen
  obtain ⟨t, hrun, hpc, hsp, -⟩ := calls_then_returns targets s hlen
  exact ⟨t, hrun, hpc, hsp⟩

/-! ## Skips and the indexed jump -/

/-- A skip as the spec writes it, on the number of PC. -/
theorem skipIf_pc_toNat (s : State) (c : Bool) :
    (s.skipIf c).pc.toNat = if c = true then (s.pc.toNat + 2) % 0x1000 else s.pc.toNat := by
  rw [State.skipIf_eq, State.setPc_pc, apply_ite BitVec.toNat, addr_add_two_toNat]

/-- An instruction that skips when `p` holds. -/
theorem skips_of_iff {i : Instr} {s : State} {c : Bool} {p : Prop} [Decidable p] (h : exec i s = .next (s.skipIf c)) (hc : c = true ↔ p) :
    ∃ t, exec i s = .next t ∧ changesOnly [.pc] s t ∧ t.pc.toNat = if p then (s.pc.toNat + 2) % 0x1000 else s.pc.toNat :=
  ⟨_, h, changesOnly_skipIf s c, by rw [skipIf_pc_toNat]; simp only [hc]⟩

/-- An instruction that skips when `p` does not hold. -/
theorem skips_of_iff_not {i : Instr} {s : State} {c : Bool} {p : Prop} [Decidable p] (h : exec i s = .next (s.skipIf c)) (hc : c = true ↔ ¬ p) :
    ∃ t, exec i s = .next t ∧ changesOnly [.pc] s t ∧ t.pc.toNat = if p then s.pc.toNat else (s.pc.toNat + 2) % 0x1000 := by
  obtain ⟨t, ht, hframe, hpc⟩ := skips_of_iff h hc
  exact ⟨t, ht, hframe, by rw [hpc, ite_not]⟩

/-- Settles O22: four skips, two on equality and two on inequality. -/
theorem skipsCompareRegisters : Obligations.SkipsCompareRegisters := fun x y nn _ =>
  ⟨decodeWord_encode (i := .seImm x nn) rfl, decodeWord_encode (i := .sneImm x nn) rfl, decodeWord_encode (i := .seReg x y) rfl,
    decodeWord_encode (i := .sneReg x y) rfl, skips_of_iff rfl beq_iff_eq, skips_of_iff_not rfl bne_iff_ne, skips_of_iff rfl beq_iff_eq,
    skips_of_iff_not rfl bne_iff_ne⟩

/-- The key a register names is that of its low nibble (D8). -/
theorem keyIndex_eq {b : Byte} {k : KeyIdx} (h : k.toNat = b.toNat % 16) : keyIndex b = k :=
  BitVec.eq_of_toNat_eq (by simp [keyIndex, BitVec.extractLsb'_toNat, h])

/-- Settles O48: two skips on the key. -/
theorem skipsTestTheKey : Obligations.SkipsTestTheKey := by
  refine fun x s => ⟨decodeWord_encode (i := .skp x) rfl, decodeWord_encode (i := .sknp x) rfl, fun k hk => ?_⟩
  rw [← keyIndex_eq hk]
  exact ⟨skips_of_iff rfl Iff.rfl, skips_of_iff_not rfl (by simp)⟩

/-- The sum with a zero-extended byte, as a number (R97). -/
theorem add_setWidth_toNat (a : Addr) (b : Byte) : (a + b.setWidth 12).toNat = (a.toNat + b.toNat) % 0x1000 := by
  rw [BitVec.toNat_add, BitVec.toNat_setWidth, Nat.mod_eq_of_lt (by omega : b.toNat < 2 ^ 12)]

/-- Settles O23: the jump writes PC alone. -/
theorem indexedJumpAddsV0 : Obligations.IndexedJumpAddsV0 := fun nnn s =>
  ⟨decodeWord_encode (i := .jpV0 nnn) rfl, _, rfl, add_setWidth_toNat nnn (s.getV 0x0#4), changesOnly_setPc s _⟩

end Sys2Proof.Proofs.CallsAndSkips
end

