-- ==== Sys2Proof/Proofs/FlagWriters.lean ====
section
/-! PROOFS. The ALU with and without a flag, the random load and `Fx1E` (42_alu.md, 43_index_memory.md section 2). -/

namespace Sys2Proof.Proofs.FlagWriters

open Sys2Proof Sys2Proof.Machine Sys2Proof.Proofs.Encoding Sys2Proof.Proofs.Frames Sys2Proof.Proofs.Alu Sys2Proof.Proofs.IndexMemory

/-! ## Results and flags as numbers -/

/-- A comparison's flag as a number. -/
theorem toNat_decide (p : Prop) [Decidable p] : (decide p).toNat = if p then 1 else 0 := by
  by_cases h : p <;> simp [h]

/-- Flags are equal when their numbers are. -/
theorem toNat_injective : Function.Injective Bool.toNat := Function.LeftInverse.injective Bool.ofNat_toNat

/-- The byte a flag is written as, as a number. -/
theorem flagByte_toNat (flag : Bool) : (if flag then 0x01#8 else 0x00#8 : Byte).toNat = flag.toNat := by
  cases flag <;> rfl

/-- A bit of a byte as a number. -/
theorem toNat_getLsbD (b : Byte) (k : Nat) : (b.getLsbD k).toNat = b.toNat / 2 ^ k % 2 := Nat.toNat_testBit b.toNat k

/-- The narrowed difference is the difference modulo 256. -/
theorem diff8_toNat (a b : Byte) : (diff8 a b).toNat = (a.toNat + 256 - b.toNat) % 256 := by
  have := a.isLt
  rw [diff8, BitVec.toNat_ofNat]
  split <;> omega

theorem shiftRight1_toNat (b : Byte) : (shiftRight1 b).toNat = b.toNat / 2 := by
  rw [shiftRight1, BitVec.toNat_ushiftRight, Nat.shiftRight_eq_div_pow, Nat.pow_one]

theorem shiftLeft1_toNat (a : Byte) : (shiftLeft1 a).toNat = a.toNat * 2 % 256 := by
  rw [shiftLeft1, BitVec.toNat_shiftLeft, Nat.shiftLeft_eq, Nat.pow_one]

theorem shlFlag_toNat (a : Byte) : (shlFlag a).toNat = a.toNat / 128 := by
  have := a.isLt
  rw [shlFlag, toNat_getLsbD]
  omega

theorem shrFlag_vx_toNat (a b : Byte) : (shrFlag .vx a b).toNat = a.toNat % 2 := by
  rw [shrFlag, toNat_getLsbD, Nat.pow_zero, Nat.div_one]

theorem shrFlag_vy_toNat (a b : Byte) : (shrFlag .vy a b).toNat = b.toNat % 2 := by
  rw [shrFlag, toNat_getLsbD, Nat.pow_zero, Nat.div_one]

/-! ## An instruction that ends in a result and a flag (R13) -/

/-- It changes the destination and VF alone, leaves the flag in VF for every destination, and the result where the destination is not VF. -/
theorem resultAndFlag {i : Instr} {s : State} {x : RegIdx} {result : Byte} {flag : Bool}
    (h : exec i s = .next (s.setResultAndFlag x result flag)) : ∃ t, exec i s = .next t ∧ changesOnly [.reg x, .reg 0xF#4] s t
      ∧ (t.getV 0xF#4).toNat = flag.toNat ∧ (x ≠ 0xF#4 → (t.getV x).toNat = result.toNat) := by
  refine ⟨_, h, changesOnly_setResultAndFlag s x result flag, ?_, fun hx => ?_⟩
  · rw [State.getV_setResultAndFlag, if_pos rfl, flagByte_toNat]
  · rw [State.getV_setResultAndFlag, if_neg hx, if_pos rfl]

/-- Settles O27: the carry compares the exact sum. -/
theorem addSetsCarry : Obligations.AddSetsCarry := by
  intro x y s
  obtain ⟨t, ht, hframe, hflag, hresult⟩ := resultAndFlag (i := .addReg x y) (s := s) rfl
  rw [carry8, toNat_decide] at hflag
  exact ⟨decodeWord_encode (i := .addReg x y) rfl, t, ht, hframe, hflag, fun hx => (hresult hx).trans (sum8_toNat _ _)⟩

/-- Settles O28: the two subtractions differ in which operand is the minuend. -/
theorem subtractionsSetNoBorrow : Obligations.SubtractionsSetNoBorrow := by
  intro x y s
  obtain ⟨t, ht, hframe, hflag, hresult⟩ := resultAndFlag (i := .subReg x y) (s := s) rfl
  obtain ⟨u, hu, hframe', hflag', hresult'⟩ := resultAndFlag (i := .subnReg x y) (s := s) rfl
  rw [noBorrow, toNat_decide] at hflag hflag'
  exact ⟨decodeWord_encode (i := .subReg x y) rfl, decodeWord_encode (i := .subnReg x y) rfl,
    ⟨t, ht, hframe, hflag, fun hx => (hresult hx).trans (diff8_toNat _ _)⟩,
    ⟨u, hu, hframe', hflag', fun hx => (hresult' hx).trans (diff8_toNat _ _)⟩⟩

/-- Settles O29: the flag under each value of the parameter. -/
theorem shiftRightTakesVyAndFlagsTheSource : Obligations.ShiftRightTakesVyAndFlagsTheSource := by
  intro x y s
  obtain ⟨t, ht, hframe, hflag, hresult⟩ := resultAndFlag (i := .shrReg x y) (s := s) rfl
  exact ⟨decodeWord_encode (i := .shrReg x y) rfl, t, ht, hframe, fun hvx => by rw [hflag, hvx, shrFlag_vx_toNat],
    fun hvy => by rw [hflag, hvy, shrFlag_vy_toNat], fun hx => (hresult hx).trans (shiftRight1_toNat _)⟩

/-- Settles O31: `y` is not used, and the flag is bit 7. -/
theorem shiftLeftTakesVx : Obligations.ShiftLeftTakesVx := by
  intro x y s
  obtain ⟨t, ht, hframe, hflag, hresult⟩ := resultAndFlag (i := .shlReg x y) (s := s) rfl
  exact ⟨decodeWord_encode (i := .shlReg x y) rfl, fun _ => rfl, t, ht, hframe, hflag.trans (shlFlag_toNat _),
    fun hx => (hresult hx).trans (shiftLeft1_toNat _)⟩

/-- A result and a flag leave equal states exactly when the flags are equal. -/
theorem setResultAndFlag_inj (s : State) (x : RegIdx) (result : Byte) (flag flag' : Bool) :
    s.setResultAndFlag x result flag = s.setResultAndFlag x result flag' ↔ flag = flag' := by
  refine ⟨fun h => ?_, fun h => by rw [h]⟩
  have hvf := congrArg (fun t => (t.getV 0xF#4).toNat) h
  simp only [State.getV_setResultAndFlag, if_true, flagByte_toNat] at hvf
  exact toNat_injective hvf

/-- Settles O30: the readings differ in the flag alone. -/
theorem shiftRightReadingsAgreeWhereBitsDo : Obligations.ShiftRightReadingsAgreeWhereBitsDo := by
  refine fun x y s => ⟨?_, rfl⟩
  rw [State.shiftRightInto, State.shiftRightInto, setResultAndFlag_inj, ← toNat_injective.eq_iff, shrFlag_vx_toNat, shrFlag_vy_toNat]

/-! ## Without a flag -/

/-- An instruction that writes one register: its frame and each bit of what it wrote. -/
theorem writesBits {i : Instr} {s : State} {x : RegIdx} {b : Byte} {bits : Nat → Bool} (h : exec i s = .next (s.setV x b))
    (hbits : ∀ k, b.getLsbD k = bits k) :
    ∃ t, exec i s = .next t ∧ changesOnly [.reg x] s t ∧ ∀ k, (t.getV x).getLsbD k = bits k :=
  ⟨_, h, changesOnly_setV s x b, fun k => by rw [getV_setV_self, hbits]⟩

/-- Settles O26: each result bit by bit. -/
theorem logicIsBitwiseWithoutFlag : Obligations.LogicIsBitwiseWithoutFlag := fun x y _ =>
  ⟨decodeWord_encode (i := .orReg x y) rfl, decodeWord_encode (i := .andReg x y) rfl, decodeWord_encode (i := .xorReg x y) rfl,
    writesBits rfl fun _ => BitVec.getLsbD_or, writesBits rfl fun _ => BitVec.getLsbD_and, writesBits rfl fun _ => BitVec.getLsbD_xor⟩

/-! ## The random load (R111) -/

theorem exec_rnd (x : RegIdx) (nn : Byte) (s : State) :
    exec (.rnd x nn) s = .next (s.afterDraw.setV x (s.randomByte &&& nn)) := rfl

/-- A listed byte is the one drawn. -/
theorem randomByte_of_listed {s : State} {b : Byte} {bs : List Byte} (h : s.rnd = b :: bs) : s.randomByte = b := by
  rw [State.randomByte, h]

/-- With none listed the byte is the free value of this draw. -/
theorem randomByte_of_none {s : State} (h : s.rnd = []) : s.randomByte = Config.freeByte s.draws := by
  rw [State.randomByte, h]

/-- Settles O32: the draw is counted and masked. -/
theorem randomByteIsMasked : Obligations.RandomByteIsMasked := by
  intro x nn s
  have hx : (s.afterDraw.setV x (s.randomByte &&& nn)).getV x = s.randomByte &&& nn := getV_setV_self _ x _
  refine ⟨decodeWord_encode (i := .rnd x nn) rfl, _, exec_rnd x nn s,
    changesOnly_mono (changesOnly_append (changesOnly_afterDraw s) (changesOnly_setV _ x _)) (by simp), rfl, fun b bs h => ?_,
    fun h => ?_, fun k hk => ?_⟩
  · rw [hx, randomByte_of_listed h]
    exact ⟨rfl, congrArg List.tail h⟩
  · rw [hx, randomByte_of_none h]
    exact ⟨rfl, congrArg List.tail h⟩
  · rw [hx, BitVec.getLsbD_and, hk, Bool.and_false]

/-! ## `Fx1E` (R121) -/

theorem exec_addI (x : RegIdx) (s : State) : exec (.addI x) s
    = .next ((s.setI (sumI s.i (s.getV x))).setV 0xF#4 (if carryI s.i (s.getV x) then 0x01#8 else 0x00#8)) := rfl

/-- Settles O34: I is the narrowed sum, VF compares the exact one. -/
theorem addToIndexSetsOverflow : Obligations.AddToIndexSetsOverflow := by
  intro x s
  refine ⟨decodeWord_encode (i := .addI x) rfl, _, exec_addI x s,
    changesOnly_append (changesOnly_setI s _) (changesOnly_setV _ 0xF#4 _), ?_, ?_⟩
  · rw [State.setV_i, State.setI_i, sumI, BitVec.toNat_ofNat]
  · rw [getV_setV_self, flagByte_toNat, carryI, toNat_decide]

end Sys2Proof.Proofs.FlagWriters
end

