-- ==== Sys2Proof/Proofs/Transfers.lean ====
section
/-! PROOFS. The transfers between registers and Memory (43_index_memory.md section 3): the decimal digits, a store read back by a load, and
a store read back by the next fetch. -/

namespace Sys2Proof.Proofs.Transfers

open Sys2Proof Sys2Proof.Machine Sys2Proof.Proofs.Encoding Sys2Proof.Proofs.Frames Sys2Proof.Proofs.IndexMemory

/-! ## `Fx33` (R123) -/

theorem exec_ldB (x : RegIdx) (s : State) : exec (.ldB x) s = .next (s.storeAtI (decimalDigits (s.getV x))) := rfl

/-- The three digits stand at I, I + 1 and I + 2, their offsets being distinct. -/
theorem readByte_storeAtI_decimalDigits (s : State) (b : Byte) {c : Nat × Byte} (hc : c ∈ decimalDigits b) :
    (s.storeAtI (decimalDigits b)).readByte (s.dataAddr c.1) = c.2 :=
  s.readByte_storeAtI (decimalDigits b) (by simp [decimalDigits]) (by simp [decimalDigits]) hc

/-- The digits' cells are at the offsets 0, 1 and 2. -/
theorem changesOnly_storeAtI_decimalDigits (s : State) (b : Byte) :
    changesOnly [.byte (s.dataAddr 0), .byte (s.dataAddr 1), .byte (s.dataAddr 2)] s (s.storeAtI (decimalDigits b)) := by
  intro p hp
  refine agreeOn_storeAtI s (decimalDigits b) fun c hc heq => hp ?_
  subst heq
  simp only [decimalDigits, List.mem_cons, List.not_mem_nil, or_false] at hc
  rcases hc with rfl | rfl | rfl <;> simp

/-- A digit narrowed to a byte is the digit. -/
theorem ofNat_digit_toNat {d : Nat} (h : d < 256) : (BitVec.ofNat 8 d).toNat = d := by
  rw [BitVec.toNat_ofNat, Nat.mod_eq_of_lt h]

/-- Settles O35: the digits by `readByte_storeAtI_decimalDigits`, each below 256. -/
theorem decimalDigitsAreStored : Obligations.DecimalDigitsAreStored := by
  intro x s
  have hlt := (s.getV x).isLt
  have hread := fun c hc => readByte_storeAtI_decimalDigits s (s.getV x) (c := c) hc
  refine ⟨decodeWord_encode (i := .ldB x) rfl, _, exec_ldB x s, ?_, ?_, ?_, fun k _ => dataAddr_toNat s k,
    changesOnly_storeAtI_decimalDigits s (s.getV x)⟩
  · rw [hread (0, _) (.head _), ofNat_digit_toNat (by omega)]
  · rw [hread (1, _) (.tail _ (.head _)), ofNat_digit_toNat (by omega)]
  · rw [hread (2, _) (.tail _ (.tail _ (.head _))), ofNat_digit_toNat (by omega)]

/-! ## A store read back -/

/-- Settles O38: the load reads at the store's addresses the bytes the store left there. -/
theorem storeThenLoadGivesRegistersBack : Obligations.StoreThenLoadGivesRegistersBack := by
  intro x s t t' hstore hi hbytes
  obtain rfl := Host.Outcome.next.inj ((exec_storeRegs x s).symm.trans hstore)
  have hi' : t'.i = s.i := hi.trans (agreeOn_storeAtI s (s.rangeCells x) (p := .index) (by simp))
  refine ⟨_, exec_loadRegs x t', fun r hr => ?_⟩
  have haddr : t'.dataAddr r.toNat = s.dataAddr r.toNat := by rw [State.dataAddr, State.dataAddr, hi']
  rw [getV_loadAtI_regRange t' hr, haddr]
  exact (hbytes _).trans (readByte_storeAtI_rangeCells s hr)

/-- The address of the next register's byte is the next address, also across the top of Memory (D2). -/
theorem dataAddr_succ (s : State) {x r : RegIdx} (h : r < x) : s.dataAddr (r + 0x1#4).toNat = s.dataAddr r.toNat + 0x001#12 := by
  have hnext : (r + 0x1#4).toNat = r.toNat + 1 := by bv_omega
  rw [State.dataAddr, State.dataAddr, hnext, BitVec.ofNat_add, BitVec.add_assoc]

/-- Settles O39: the fetch reads the bytes at which two neighbouring registers were stored. -/
theorem storedBytesAreFetchedAtOnce : Obligations.StoredBytesAreFetchedAtOnce := by
  intro x r s t hstore hr hpc
  obtain rfl := Host.Outcome.next.inj ((exec_storeRegs x s).symm.trans hstore)
  rw [State.fetchWord, hpc, ← dataAddr_succ s hr, readByte_storeAtI_rangeCells s (BitVec.le_of_lt hr),
    readByte_storeAtI_rangeCells s (by bv_omega)]

end Sys2Proof.Proofs.Transfers
end
